-- ==== Sys2Proof/Word.lean ====
section
/-! DEFINITION. The two word sizes of the block (`00_scope.md` R3): an 8-bit data path and 16-bit addresses. -/

namespace Sys2Proof

/-- `u8`: an 8-bit register, or one byte on the Bus (R3). -/
abbrev Byte := BitVec 8

/-- `u16`: an address, PC, SP or a pair (R3). -/
abbrev Word := BitVec 16

end Sys2Proof
end

