-- ==== Sys2Proof/Machine/Bits.lean ====
section
/-! DEFINITION. The two halves of a 16-bit value, and a 16-bit value from its halves (`00_scope.md` §4). -/

namespace Sys2Proof.Machine

/-- `v[15:8]`. -/
def hiByte (v : Word) : Byte := v.extractLsb' 8 8

/-- `v[7:0]`. -/
def loByte (v : Word) : Byte := v.extractLsb' 0 8

/-- `hi ++ lo = (hi << 8) | lo`. -/
def joinBytes (hi lo : Byte) : Word := hi ++ lo

/-- Two bytes in stream or memory order, low byte first (`20_memory.md` R42, `30_encoding.md` R50). -/
def littleEndian (lo hi : Byte) : Word := joinBytes hi lo

end Sys2Proof.Machine
end

