-- ==== Sys2Proof/Syntax.lean ====
section
/-! DEFINITION. The instruction set as syntax: the opcodes of `30_encoding.md` R52, the closed sum `Op` of
`40_engine.md` R63 (here `Instr`), the decoded-instruction record of R63, and the names of the register operands. -/

namespace Sys2Proof

/-- The eight 8-bit registers (`10_state.md` R8). -/
inductive Reg8 where
  | a | b | c | d | e | f | h | l
  deriving DecidableEq, Repr

/-- What `read16` and `write16` may name: the four pairs and SP (`10_state.md` R13). -/
inductive Reg16 where
  | af | bc | de | hl | sp
  deriving DecidableEq, Repr

/-- The three opcodes (`30_encoding.md` R52). -/
inductive Opcode where
  | ldSpD16 | xorA | ldHlD16
  deriving DecidableEq, Repr

/-- The two formats (`30_encoding.md` R51). -/
inductive Format where
  /-- one byte: the opcode -/
  | op
  /-- three bytes: the opcode, then the low and the high byte of `imm16` -/
  | opD16
  deriving DecidableEq, Repr

/-- An instruction with its operands resolved: `Op` of `40_engine.md` R63, one constructor per row of the opcode table. -/
inductive Instr where
  /-- `LD SP,d16`, opcode 0x31 (R72) -/
  | ldSpD16 (imm16 : Word)
  /-- `XOR A`, opcode 0xAF (R75) -/
  | xorA
  /-- `LD HL,d16`, opcode 0x21 (R73) -/
  | ldHlD16 (imm16 : Word)
  deriving DecidableEq, Repr

/-- The decoded Instruction that Decode returns: a value, not state (`40_engine.md` R63, `10_state.md` R21). -/
structure Instruction where
  /-- the address of the opcode byte -/
  origin : Word
  /-- the disassembly text (`30_encoding.md` R57 to R59) -/
  text : String
  /-- the cycle cost, data only (`70_reset_and_hazards.md` R101) -/
  cycles : Nat
  /-- the length in bytes (`30_encoding.md` R49) -/
  length : Nat
  /-- the resolved immediate, where the format has one -/
  imm16 : Option Word
  /-- the bound execution behaviour -/
  op : Instr
  deriving DecidableEq, Repr

end Sys2Proof
end

