-- ==== Sys2Proof/Machine/OpcodeTable.lean ====
section
/-! DEFINITION. The opcode table (`30_encoding.md` R49, R51, R52; `70_reset_and_hazards.md` R101) and the disassembly
text (`30_encoding.md` R57 to R59). -/

namespace Sys2Proof.Machine

/-- One row of the opcode map: the opcode byte, the format and the cycle cost. -/
structure OpcodeRow where
  byte : Byte
  format : Format
  cycles : Nat
  deriving DecidableEq, Repr

/-- The opcode map of R52 with the cycle costs of R101 (their unit is not stated, D18). -/
def rowOf : Opcode → OpcodeRow
  | .ldSpD16 => { byte := 0x31, format := .opD16, cycles := 12 }
  | .xorA => { byte := 0xAF, format := .op, cycles := 4 }
  | .ldHlD16 => { byte := 0x21, format := .opD16, cycles := 12 }

/-- The opcodes of the map; exhaustive (R7, R52). -/
def opcodes : List Opcode := [.ldSpD16, .xorA, .ldHlD16]

/-- The opcode byte (R52). -/
def opcodeByte (o : Opcode) : Byte := (rowOf o).byte

/-- The opcode a byte stands for; none for the 253 unimplemented bytes (R52, R54). No byte is a prefix (R55). -/
def opcodeOfByte (byte : Byte) : Option Opcode := opcodes.find? (fun o => opcodeByte o == byte)

/-- How many operand bytes a format has (R51). -/
def operandBytes : Format → Nat
  | .op => 0
  | .opD16 => 2

/-- The format of an opcode (R52). -/
def formatOf (o : Opcode) : Format := (rowOf o).format

/-- The length the opcode decides: one byte more than the operand bytes (R49). -/
def lengthOf (o : Opcode) : Nat := 1 + operandBytes (formatOf o)

/-- The cycle cost of an opcode (R101). -/
def cyclesOf (o : Opcode) : Nat := (rowOf o).cycles

/-- The opcode of an instruction. -/
def opcodeOf : Instr → Opcode
  | .ldSpD16 _ => .ldSpD16
  | .xorA => .xorA
  | .ldHlD16 _ => .ldHlD16

/-- The immediate an instruction carries (`40_engine.md` R63). -/
def imm16Of : Instr → Option Word
  | .ldSpD16 v => some v
  | .xorA => none
  | .ldHlD16 v => some v

/-- One lowercase hex digit (R59). -/
def hexDigit (n : BitVec 4) : Char :=
  if n.toNat < 10 then Char.ofNat (48 + n.toNat) else Char.ofNat (87 + n.toNat)

/-- `X(v)`: `0x` and exactly four lowercase hex digits (R59; the padding is D14). -/
def hexText (v : Word) : String :=
  String.ofList ['0', 'x', hexDigit (v.extractLsb' 12 4), hexDigit (v.extractLsb' 8 4),
    hexDigit (v.extractLsb' 4 4), hexDigit (v.extractLsb' 0 4)]

/-- The mnemonic and operands of the text (R58; the `LD HL` line is D14). -/
def operationText : Instr → String
  | .ldSpD16 v => "LD SP, " ++ hexText v
  | .xorA => "XOR A"
  | .ldHlD16 v => "LD HL, " ++ hexText v

/-- The disassembly text of an instruction at its origin (R57, R58). -/
def disassembly (i : Instr) (origin : Word) : String := operationText i ++ " ;$" ++ hexText origin

/-- The Instruction record of `40_engine.md` R63 for an instruction at its origin. -/
def mkInstruction (origin : Word) (i : Instr) : Instruction :=
  { origin := origin
    text := disassembly i origin
    cycles := cyclesOf (opcodeOf i)
    length := lengthOf (opcodeOf i)
    imm16 := imm16Of i
    op := i }

end Sys2Proof.Machine
end

