-- ==== Sys2Proof/WellFormed.lean ====
section
/-! DEFINITION. Which decoded Instructions are well formed. Every term of `Instr` is a well-formed instruction: its
only field is a 16-bit immediate, and every 16-bit value is legal (`41_load_imm16.md` R72, R73). The checks are on the
record of `40_engine.md` R63, whose fields must agree with the behaviour it binds. -/

namespace Sys2Proof

/-- The immediate field holds the immediate inside `op` (R63). -/
def Instruction.immAgrees (i : Instruction) : Bool := decide (i.imm16 = Machine.imm16Of i.op)

/-- The length is 1 + the number of operand bytes (R49, R63, R67). -/
def Instruction.lengthAgrees (i : Instruction) : Bool :=
  decide (i.length = Machine.lengthOf (Machine.opcodeOf i.op))

/-- The cycle cost is the table's (R101). -/
def Instruction.cyclesAgree (i : Instruction) : Bool :=
  decide (i.cycles = Machine.cyclesOf (Machine.opcodeOf i.op))

/-- The text is the disassembly of `op` at `origin` (R57, R58). -/
def Instruction.textAgrees (i : Instruction) : Bool := decide (i.text = Machine.disassembly i.op i.origin)

/-- An Instruction as R63 says Decode builds one. -/
def Instruction.wf (i : Instruction) : Bool :=
  i.immAgrees && i.lengthAgrees && i.cyclesAgree && i.textAgrees

end Sys2Proof
end

