-- ==== Sys2Proof/Decode.lean ====
section
/-! DEFINITION. The decoder of a byte stream, total on any bytes, and the encoder (`30_encoding.md` R48 to R56). The
Engine's Decode, which fetches its operand bytes through the Bus, is `Machine.decodeAt` (`40_engine.md` R64); it uses
the same opcode table. -/

namespace Sys2Proof

/-- Why a byte stream holds no instruction. -/
inductive DecodeError where
  /-- The first byte is one of the 253 bytes outside the opcode map (R54). -/
  | unimplementedOpcode (byte : Byte)
  /-- The stream is empty. Only a list of bytes can end; the block fetches until a Fetch raises (log 7). -/
  | noOpcode
  /-- The stream ends inside the operand bytes of this opcode (log 7). -/
  | truncated (opcode : Opcode)
  deriving DecidableEq, Repr

/-- The immediate of an `OP_D16` instruction: the next two bytes, low byte first (R50). -/
def takeImm16 : List Byte → Option (Word × List Byte)
  | lo :: hi :: rest => some (Machine.littleEndian lo hi, rest)
  | _ => none

/-- The instruction at the head of a byte stream and the bytes after it (R48, R49, R52, R53). -/
def decode : List Byte → Except DecodeError (Instr × List Byte)
  | [] => .error .noOpcode
  | byte :: rest =>
    match Machine.opcodeOfByte byte with
    | none => .error (.unimplementedOpcode byte)
    | some .xorA => .ok (.xorA, rest)
    | some .ldSpD16 =>
      match takeImm16 rest with
      | some (imm16, rest') => .ok (.ldSpD16 imm16, rest')
      | none => .error (.truncated .ldSpD16)
    | some .ldHlD16 =>
      match takeImm16 rest with
      | some (imm16, rest') => .ok (.ldHlD16 imm16, rest')
      | none => .error (.truncated .ldHlD16)

/-- The operand bytes of an instruction in stream order (R50, R51). -/
def encodeOperands (i : Instr) : List Byte :=
  match Machine.imm16Of i with
  | some v => [Machine.loByte v, Machine.hiByte v]
  | none => []

/-- The bytes of an instruction in fetch order (R51, R52). -/
def encode (i : Instr) : List Byte := Machine.opcodeByte (Machine.opcodeOf i) :: encodeOperands i

/-- The longest instruction in bytes (R49). -/
abbrev maxLength : Nat := 3

/-- The bytes of an instruction whose bits are `w`, bit 0 the least significant bit of its first byte, each later
byte eight bits further up; every bit at or above `nbits` is 0. -/
def tableBytes (nbits w : Nat) : List Byte :=
  let v := w % 2 ^ nbits
  [BitVec.ofNat 8 v, BitVec.ofNat 8 (v / 2 ^ 8), BitVec.ofNat 8 (v / 2 ^ 16)]

/-- The instruction the decoder reads from a word of the opcode table. -/
def decodeTableWord (nbits w : Nat) : Option Instr :=
  match decode (tableBytes nbits w) with
  | .ok (i, _) => some i
  | .error _ => none

end Sys2Proof
end

