-- ==== Sys2Proof/Config.lean ====
section
/-! DEFINITION. What is fixed for the machine (`00_scope.md` §3) and the values the model names where the spec leaves
them free. There is no opaque value here: the spec leaves no result of an instruction open. -/

namespace Sys2Proof.Config

/-- The boot image has exactly 256 bytes (R4, R93). -/
abbrev bootSize : Nat := 256

/-- The reset vector (R95, D5). -/
abbrev resetPc : Word := 0x0000

/-- DESIGN CHOICE (log 2): what a byte of the Bootstrap store that no image entry lists reads as. The spec leaves the
image's contents free (R4); `95_test_vectors.md` Part 3 writes its images this way ("Bytes not listed are 0x00"). -/
abbrev unlistedByte : Byte := 0x00

/-- DESIGN CHOICE (log 1): the draw `State.reset` takes for each 8-bit register of R95. -/
abbrev resetByte : Byte := 0x00

/-- DESIGN CHOICE (log 1): the draw `State.reset` takes for SP (R95). -/
abbrev resetSp : Word := 0x0000

end Sys2Proof.Config
end

