-- ==== Sys2Proof/Machine/State.lean ====
section
/-! DEFINITION. The state of the block (`10_state.md` R23), the regions (`20_memory.md` R25), the error taxonomy
(`60_exceptions.md` R76), and the reasons a step can stop. -/

namespace Sys2Proof.Machine

/-- A Region: one of thirteen variants, twelve with a region-relative offset (`20_memory.md` R25). -/
inductive Region where
  | bootstrap (offset : Word)
  | cartridgeBankZero (offset : Word)
  | cartridgeBankSwitchable (offset : Word)
  | vram (offset : Word)
  | cartridgeRam (offset : Word)
  | workRam (offset : Word)
  | workRam2 (offset : Word)
  | prohibitedEchoRam (offset : Word)
  | objectAttributeMemory (offset : Word)
  | prohibited (offset : Word)
  | ioRegisters (offset : Word)
  | hiRam (offset : Word)
  | interruptEnableRegister
  deriving DecidableEq, Repr

/-- The error taxonomy (`60_exceptions.md` R76). -/
inductive Error where
  /-- construction only (R82); `expectedSize` is always 256 -/
  | bootstrapLoadError (expectedSize actualSize : Nat)
  /-- the classifier, so any Bus access or Fetch (R77) -/
  | invalidBootstrapAccess (address : Word)
  /-- BusRead, BusWrite and Fetch (R78) -/
  | unimplementedRegion (region : Region)
  /-- Decode (R80) -/
  | unimplementedOpcode (byte : Byte) (address : Word)
  /-- BusWrite (R79) -/
  | readOnlyRegion (region : Region)
  /-- the Bootstrap store's own reads (R81) -/
  | notMapped
  deriving DecidableEq, Repr

/-- Why a step answers no next state. -/
inductive Fault where
  /-- Raised by every instruction and by the step when the fault latch already holds `error`: the run has ended, and
  each operation returns `Err(error)` again and changes nothing (R69, R85). Safe: the spec stops here too. -/
  | latched (error : Error)
  deriving DecidableEq, Repr

/-- Why the model gives a call no meaning. -/
inductive Refusal where
  /-- Raised by an arm of `exec` that has no meaning yet; no arm of this model raises it. Safe. -/
  | notModelled (mnemonic : String)
  /-- Raised by the Bootstrap store's `read16` at offset 0xFF, which R40 says a model must refuse (D15); no instruction
  and no step reaches it. Safe. -/
  | bootRead16AtEnd
  deriving DecidableEq, Repr

/-- The bytes of the Bootstrap store as (offset, byte) pairs in the canonical form of `Memory.wf`. -/
abbrev Memory := List Host.Cell

/-- The whole state of the block (`10_state.md` R23). -/
structure State where
  a : Byte
  b : Byte
  c : Byte
  d : Byte
  e : Byte
  /-- the flag register: bits 3 to 0 are zero in every reachable state (R12) -/
  f : Byte
  h : Byte
  l : Byte
  sp : Word
  pc : Word
  /-- the boot-mapped bit (R19) -/
  bm : Bool
  /-- the Bootstrap store (`20_memory.md` R39) -/
  boot : Memory
  /-- the fault latch (R20) -/
  fault : Option Error
  deriving DecidableEq, Repr

/-- The block right after reset (`70_reset_and_hazards.md` R95): PC at the reset vector, boot-mapped, no fault. The
registers R95 leaves as free draws take the values of log 1, and the image, which R4 leaves free, is the one with
nothing listed (log 2). Every other image and draw is a state `build` answers. -/
def State.reset : State :=
  { a := Config.resetByte
    b := Config.resetByte
    c := Config.resetByte
    d := Config.resetByte
    e := Config.resetByte
    f := Config.resetByte
    h := Config.resetByte
    l := Config.resetByte
    sp := Config.resetSp
    pc := Config.resetPc
    bm := true
    boot := []
    fault := none }

end Sys2Proof.Machine
end

