-- ==== Sys2Proof/Machine/Memory.lean ====
section
/-! DEFINITION. The Bootstrap store as data: reading, the canonical form, and the store of an image
(`20_memory.md` R39, `70_reset_and_hazards.md` R95). No operation of the block writes the store; `Memory.write` serves
construction and `State.withFetchWord` alone. -/

namespace Sys2Proof.Machine

/-- The byte at an offset; an offset not listed reads as `Config.unlistedByte` (log 2). -/
def Memory.read : Memory → Nat → Byte
  | [], _ => Config.unlistedByte
  | (k, v) :: m, off => if k = off then v else Memory.read m off

/-- `m` without an entry for `off`. -/
def Memory.erase : Memory → Nat → Memory
  | [], _ => []
  | (k, v) :: m, off => if k = off then m else (k, v) :: Memory.erase m off

/-- `m` with the entry `(off, v)`, in rising order. -/
def Memory.insert : Memory → Nat → Byte → Memory
  | [], off, v => [(off, v)]
  | (k, w) :: m, off, v =>
    if off < k then (off, v) :: (k, w) :: m
    else if off = k then (off, v) :: m
    else (k, w) :: Memory.insert m off v

/-- `m` with the byte at `off` now `v`, in canonical form. -/
def Memory.write (m : Memory) (off : Nat) (v : Byte) : Memory :=
  if v = Config.unlistedByte then Memory.erase m off else Memory.insert m off v

/-- Every offset listed is at least `low`, offsets rise strictly and lie in the store, and no entry holds what an
unlisted offset reads as. -/
def Memory.wfFrom : Nat → Memory → Bool
  | _, [] => true
  | low, (k, v) :: m =>
    decide (low ≤ k) && decide (k < Config.bootSize) && decide (v ≠ Config.unlistedByte) && Memory.wfFrom (k + 1) m

/-- The canonical form: equal stores are equal lists. -/
def Memory.wf (m : Memory) : Bool := Memory.wfFrom 0 m

/-- The store that holds the bytes of a list from `off` on. -/
def Memory.ofBytes : Nat → List Byte → Memory
  | _, [] => []
  | off, v :: bytes =>
    if v = Config.unlistedByte then Memory.ofBytes (off + 1) bytes else (off, v) :: Memory.ofBytes (off + 1) bytes

/-- `boot[i] = image[i]` (R95). -/
def Memory.ofImage (image : List Byte) : Memory := Memory.ofBytes 0 image

/-- The bytes of a list written from `off` on. -/
def Memory.writeBytes : Memory → Nat → List Byte → Memory
  | m, _, [] => m
  | m, off, v :: bytes => Memory.writeBytes (Memory.write m off v) (off + 1) bytes

end Sys2Proof.Machine
end

