-- ==== Sys2Proof/Machine/Ops.lean ====
section
/-! DEFINITION. The named operations over memory: the two outcomes of an operation, raising an error, the fault latch,
the classifier, the Bus, the Bootstrap store and Fetch (`20_memory.md`, `40_engine.md` R62, `60_exceptions.md`). -/

namespace Sys2Proof.Machine

/-- What an operation answers its caller: `Ok` or `Err` (`00_scope.md` §4), or the model's refusal of the call. -/
inductive Answer (α : Type) where
  | ok (v : α)
  | err (e : Error)
  | refused (r : Refusal)
  deriving DecidableEq, Repr

/-- One atomic transition: the answer and the state after it (`00_scope.md` R2). -/
structure Reply (α : Type) where
  answer : Answer α
  state : State
  deriving DecidableEq, Repr

/-- Go on with the value and the state of a transition that answered `Ok`; stop at anything else. -/
def Reply.andThen {α β : Type} (r : Reply α) (k : α → State → Reply β) : Reply β :=
  match r.answer with
  | .ok v => k v r.state
  | .err e => ⟨.err e, r.state⟩
  | .refused q => ⟨.refused q, r.state⟩

/-- TAKING AN ERROR, the block's only exception (`60_exceptions.md` R83, R84, R89): the typed error goes back to the
caller and the latch holds it. Nothing else is saved, masked or redirected; there is no vector, no handler and no
return (R89), so no operation undoes this one. -/
def raise {α : Type} (e : Error) (s : State) : Reply α := ⟨.err e, { s with fault := some e }⟩

/-- The guard of every operation the latch stops: it answers the latched error again and changes nothing
(`40_engine.md` R69, `60_exceptions.md` R85). -/
def guarded {α : Type} (k : State → Reply α) (s : State) : Reply α :=
  match s.fault with
  | some e => ⟨.err e, s⟩
  | none => k s

/-- A pure check as part of an operation: its error is raised. -/
def raising {α : Type} (c : Answer α) (s : State) : Reply α :=
  match c with
  | .ok v => ⟨.ok v, s⟩
  | .err e => raise e s
  | .refused q => ⟨.refused q, s⟩

/-! ### The address classifier -/

/-- `classify(a, bm)` (`20_memory.md` R26, R29, R30, R31): pure, and total as a function to a result
(`90_conflicts.md` C2). -/
def classify (a : Word) (bm : Bool) : Answer Region :=
  if a ≤ 0x3FFF then
    if bm then
      if a ≤ 0x00FF then .ok (.bootstrap a) else .err (.invalidBootstrapAccess a)
    else .ok (.cartridgeBankZero a)
  else if a ≤ 0x7FFF then .ok (.cartridgeBankSwitchable (a - 0x4000))
  else if a ≤ 0x9FFF then .ok (.vram (a - 0x8000))
  else if a ≤ 0xBFFF then .ok (.cartridgeRam (a - 0xA000))
  else if a ≤ 0xCFFF then .ok (.workRam (a - 0xC000))
  else if a ≤ 0xDFFF then .ok (.workRam2 (a - 0xD000))
  else if a ≤ 0xFDFF then .ok (.prohibitedEchoRam (a - 0xE000))
  else if a ≤ 0xFE9F then .ok (.objectAttributeMemory (a - 0xFE00))
  else if a ≤ 0xFEFF then .ok (.prohibited (a - 0xFEA0))
  else if a ≤ 0xFF7F then .ok (.ioRegisters (a - 0xFF00))
  else if a ≤ 0xFFFE then .ok (.hiRam (a - 0xFF80))
  else .ok .interruptEnableRegister

/-- The first address of a region's range (R26). -/
def regionFirst : Region → Nat
  | .bootstrap _ => 0x0000
  | .cartridgeBankZero _ => 0x0000
  | .cartridgeBankSwitchable _ => 0x4000
  | .vram _ => 0x8000
  | .cartridgeRam _ => 0xA000
  | .workRam _ => 0xC000
  | .workRam2 _ => 0xD000
  | .prohibitedEchoRam _ => 0xE000
  | .objectAttributeMemory _ => 0xFE00
  | .prohibited _ => 0xFEA0
  | .ioRegisters _ => 0xFF00
  | .hiRam _ => 0xFF80
  | .interruptEnableRegister => 0xFFFF

/-- The size in bytes of a region's range (R26). -/
def regionSize : Region → Nat
  | .bootstrap _ => 256
  | .cartridgeBankZero _ => 16384
  | .cartridgeBankSwitchable _ => 16384
  | .vram _ => 8192
  | .cartridgeRam _ => 8192
  | .workRam _ => 4096
  | .workRam2 _ => 4096
  | .prohibitedEchoRam _ => 7680
  | .objectAttributeMemory _ => 160
  | .prohibited _ => 96
  | .ioRegisters _ => 128
  | .hiRam _ => 127
  | .interruptEnableRegister => 1

/-- The offset a region value carries (R25, R31); the one variant without an offset covers one address. -/
def regionOffset : Region → Nat
  | .bootstrap off => off.toNat
  | .cartridgeBankZero off => off.toNat
  | .cartridgeBankSwitchable off => off.toNat
  | .vram off => off.toNat
  | .cartridgeRam off => off.toNat
  | .workRam off => off.toNat
  | .workRam2 off => off.toNat
  | .prohibitedEchoRam off => off.toNat
  | .objectAttributeMemory off => off.toNat
  | .prohibited off => off.toNat
  | .ioRegisters off => off.toNat
  | .hiRam off => off.toNat
  | .interruptEnableRegister => 0

/-- The condition column of R26: which regions the map holds under `bm`. -/
def regionMapped (bm : Bool) : Region → Bool
  | .bootstrap _ => bm
  | .cartridgeBankZero _ => !bm
  | _ => true

/-- The read-only regions (R38). -/
def readOnlyRegions : Region → Bool
  | .bootstrap _ => true
  | .cartridgeBankZero _ => true
  | .cartridgeBankSwitchable _ => true
  | _ => false

/-! ### The Bus -/

/-- `MemRead(a, 1)` (R32, R35, R36): classify, then the owning store; only Bootstrap has one. -/
def memRead (a : Word) (s : State) : Answer Byte :=
  match classify a s.bm with
  | .ok (.bootstrap off) => .ok (s.boot.read off.toNat)
  | .ok region => .err (.unimplementedRegion region)
  | .err e => .err e
  | .refused q => .refused q

/-- `MemWrite(a, 1, v)` (R37, R88): classification, then read-only, then the missing store; every write raises, so the
byte written is never stored. -/
def memWrite (a : Word) (_v : Byte) (s : State) : Answer Unit :=
  match classify a s.bm with
  | .ok region => if readOnlyRegions region then .err (.readOnlyRegion region) else .err (.unimplementedRegion region)
  | .err e => .err e
  | .refused q => .refused q

/-- BusRead as a transition (`00_scope.md` R2; the guard is log 5). -/
def busRead (a : Word) : State → Reply Byte := guarded fun s => raising (memRead a s) s

/-- BusWrite as a transition (`00_scope.md` R2; the guard is log 5). No instruction issues one (`30_encoding.md` R52). -/
def busWrite (a : Word) (v : Byte) : State → Reply Unit := guarded fun s => raising (memWrite a v s) s

/-! ### The Bootstrap store's own interface -/

/-- What the store's `read8` answers, as a pure check (R39, R41). -/
def storeByte (off : Byte) (s : State) : Answer Byte :=
  if s.bm then .ok (s.boot.read off.toNat) else .err .notMapped

/-- What the store's `read16` answers, as a pure check: little-endian (R40, R41, R42); at offset 0xFF the model refuses
the call (R40, D15, log 9). -/
def storeWord (off : Byte) (s : State) : Answer Word :=
  if s.bm then
    if off = 0xFF then .refused .bootRead16AtEnd
    else .ok (littleEndian (s.boot.read off.toNat) (s.boot.read (off.toNat + 1)))
  else .err .notMapped

/-- The store's `read8` as a transition (R39, R41, R81). DEDUCED (log 11): a read that raises `NotMapped` latches it, as
`00_scope.md` §4 `raise` and `93_implementation_defined.md` I5 say, though R2 and R83 do not list the store's calls; and
on a block already latched the call answers the latched error again (D6), though R69 and R85 do not list it. -/
def bootRead8 (off : Byte) : State → Reply Byte := guarded fun s => raising (storeByte off s) s

/-- The store's `read16` as a transition (R40, R41, R42, R81). DEDUCED (log 11): the latch is set by `NotMapped`, and a
latched block answers its error again, as for `bootRead8`. A refused call changes nothing (log 9). -/
def bootRead16 (off : Byte) : State → Reply Word := guarded fun s => raising (storeWord off s) s

/-! ### Fetch -/

/-- PC one byte further, modulo 2^16 (`10_state.md` R16; the wrap is D2). -/
def advancePc (s : State) : State := { s with pc := s.pc + 1 }

/-- Fetch (`40_engine.md` R62): the byte at PC through the Bus, then PC advances; a Fetch that raises leaves PC. -/
def fetch : State → Reply Byte :=
  guarded fun s => (raising (memRead s.pc s) s).andThen fun byte t => ⟨.ok byte, advancePc t⟩

/-- The bytes at `a` and after it that Fetch could read, at most `n`, up to the first that raises. -/
def readableBytes : Nat → Word → State → List Byte
  | 0, _, _ => []
  | n + 1, a, s =>
    match memRead a s with
    | .ok byte => byte :: readableBytes n (a + 1) s
    | _ => []

/-- Whether `withFetchWord` may leave PC where it is: three bytes from PC on lie in the boot window. -/
def fetchRoom (pc : Word) : Bool := decide (pc.toNat + 3 ≤ Config.bootSize)

/-- `s` with the given bytes where the next Fetch reads them, and nothing that would stop that Fetch: the window
mapped, the latch empty, PC at 0x0000 where the bytes would not fit after it (log 3). -/
def placeBytes (bytes : List Byte) (s : State) : State :=
  let pc := if fetchRoom s.pc then s.pc else 0x0000
  { s with pc := pc, bm := true, boot := s.boot.writeBytes pc.toNat bytes, fault := none }

end Sys2Proof.Machine
end

