-- ==== Sys2Proof/Machine/Operands.lean ====
section
/-! DEFINITION. The operand forms: the 8-bit registers, the pair views and SP (`10_state.md` R9 to R17), and the
16-bit immediate fetched from the instruction stream (`30_encoding.md` R50, `40_engine.md` R65). -/

namespace Sys2Proof.Machine

/-- The two 8-bit registers of a pair, the high byte first (R13); SP is storage of its own (R10). -/
def pairHalves : Reg16 → Option (Reg8 × Reg8)
  | .af => some (.a, .f)
  | .bc => some (.b, .c)
  | .de => some (.d, .e)
  | .hl => some (.h, .l)
  | .sp => none

/-- `read8(r)` (R9). -/
def State.read8 (s : State) : Reg8 → Byte
  | .a => s.a
  | .b => s.b
  | .c => s.c
  | .d => s.d
  | .e => s.e
  | .f => s.f
  | .h => s.h
  | .l => s.l

/-- `write8(r, v)` (R11); F keeps only the high nibble of the value, on every path that writes it (R12). -/
def State.write8 (s : State) (r : Reg8) (v : Byte) : State :=
  match r with
  | .a => { s with a := v }
  | .b => { s with b := v }
  | .c => { s with c := v }
  | .d => { s with d := v }
  | .e => { s with e := v }
  | .f => { s with f := v &&& 0xF0 }
  | .h => { s with h := v }
  | .l => { s with l := v }

/-- `read16(p)` (R13). -/
def State.read16 (s : State) (p : Reg16) : Word :=
  match pairHalves p with
  | some (hi, lo) => joinBytes (s.read8 hi) (s.read8 lo)
  | none => s.sp

/-- `write16(p, v)` (R14): two 8-bit writes, the high byte first; SP whole. The AF, BC and DE lines are D4. -/
def State.write16 (s : State) (p : Reg16) (v : Word) : State :=
  match pairHalves p with
  | some (hi, lo) => (s.write8 hi (hiByte v)).write8 lo (loByte v)
  | none => { s with sp := v }

/-- The `d16` operand: two Fetches, low byte first; if the first raises, the second is not attempted (R50, R65). -/
def fetchImm16 (s : State) : Reply Word :=
  (fetch s).andThen fun lo t => (fetch t).andThen fun hi u => ⟨.ok (littleEndian lo hi), u⟩

end Sys2Proof.Machine
end

