-- ==== Sys2Proof/Machine/Flags.lean ====
section
/-! DEFINITION. The flag register (`10_state.md` R18) and the one flag computation (`42_logic.md` R74). -/

namespace Sys2Proof.Machine

/-- The mask of the Zero flag, bit 7 (R18). -/
abbrev zeroMask : Byte := 0x80

/-- The Zero flag (R18). No instruction reads it. -/
def State.zeroFlag (s : State) : Bool := s.f.getLsbD 7

/-- The value `set_flags` gives F: Z when the result is zero, every other bit 0 (R74). -/
def flagsOf (result : Byte) : Byte := if result = 0 then zeroMask else 0x00

/-- `set_flags(result)`: it writes the whole of F (R74), by the write that masks (R12). -/
def State.setFlags (s : State) (result : Byte) : State := s.write8 .f (flagsOf result)

end Sys2Proof.Machine
end

