-- ==== Sys2Proof/Machine/Engine.lean ====
section
/-! DEFINITION. The Engine's Decode (`40_engine.md` R64), the part of a Step before Execute (R68), the latch guard of
Execute (R66, R69), and how a Step is shown in the host's three outcomes (log 4). -/

namespace Sys2Proof.Machine

/-- `Decode(opc, origin)` (R64): the operand bytes the opcode needs are fetched and the Instruction is built; an opcode
byte outside the map raises, and no operand byte is fetched after it (`30_encoding.md` R54, D16). -/
def decodeAt (byte : Byte) (origin : Word) : State → Reply Instruction :=
  guarded fun s =>
    match opcodeOfByte byte with
    | none => raise (.unimplementedOpcode byte origin) s
    | some .xorA => ⟨.ok (mkInstruction origin .xorA), s⟩
    | some .ldSpD16 => (fetchImm16 s).andThen fun v t => ⟨.ok (mkInstruction origin (.ldSpD16 v)), t⟩
    | some .ldHlD16 => (fetchImm16 s).andThen fun v t => ⟨.ok (mkInstruction origin (.ldHlD16 v)), t⟩

/-- A Step up to its observation point (R68): the opcode Fetch, then Decode, with PC before the Fetch as the origin. -/
def fetchDecode (s : State) : Reply Instruction := (fetch s).andThen fun byte t => decodeAt byte s.pc t

/-- How every instruction ends: on a block with no fault latched, in the state its effect gives; on a latched block,
in the latched error with nothing changed (R66, R69). -/
def completes (s t : State) : Host.Outcome State Fault Refusal :=
  match s.fault with
  | some e => .fault (.latched e)
  | none => .next t

/-- One cycle in the host's outcomes (R61, R68; log 4). A Step that raises is a next state, the one R84 gives, with
the error in the latch; a Step of a latched block is a fault, since it returns the error again and changes nothing
(R69). -/
def runCycle (execute : Instr → State → Host.Outcome State Fault Refusal) (s : State) :
    Host.Outcome State Fault Refusal :=
  match s.fault with
  | some e => .fault (.latched e)
  | none =>
    match (fetchDecode s).answer with
    | .ok i => execute i.op (fetchDecode s).state
    | .err _ => .next (fetchDecode s).state
    | .refused q => .refused q

end Sys2Proof.Machine
end

