-- ==== Sys2Proof/Machine/LoadImm16.lean ====
section
/-! DEFINITION. The 16-bit immediate loads (`41_load_imm16.md`). PC was advanced by the Fetches; Execute leaves it
(`40_engine.md` R66). -/

namespace Sys2Proof.Machine

/-- `LD SP,d16` (R72): `SP <- imm16`. -/
def execLdSpD16 (imm16 : Word) (s : State) : Host.Outcome State Fault Refusal :=
  completes s (s.write16 .sp imm16)

/-- `LD HL,d16` (R73): `H <- imm16[15:8]`, `L <- imm16[7:0]`, which is `write16(HL, imm16)`. -/
def execLdHlD16 (imm16 : Word) (s : State) : Host.Outcome State Fault Refusal :=
  completes s (s.write16 .hl imm16)

end Sys2Proof.Machine
end

