-- ==== Sys2Proof/Machine/Logic.lean ====
section
/-! DEFINITION. Logic (`42_logic.md`). -/

namespace Sys2Proof.Machine

/-- `XOR A` (R75): `A <- A ^ A`, then `set_flags` of the result. -/
def execXorA (s : State) : Host.Outcome State Fault Refusal :=
  let r := s.read8 .a ^^^ s.read8 .a
  completes s ((s.write8 .a r).setFlags r)

end Sys2Proof.Machine
end

