-- ==== Sys2Proof/Machine/Dispatch.lean ====
section
/-! DEFINITION. Execute's dispatch on the instruction (`40_engine.md` R66), one arm per constructor. -/

namespace Sys2Proof.Machine

def exec (i : Instr) (s : State) : Host.Outcome State Fault Refusal :=
  match i with
  | .ldSpD16 imm16 => Sys2Proof.Machine.execLdSpD16 imm16 s
  | .xorA => Sys2Proof.Machine.execXorA s
  | .ldHlD16 imm16 => Sys2Proof.Machine.execLdHlD16 imm16 s

end Sys2Proof.Machine
end

