-- ==== Sys2Proof/Machine/Step.lean ====
section
/-! DEFINITION. One Step (`40_engine.md` R68), and the placing of a word where the next Step fetches. -/

namespace Sys2Proof.Machine

/-- One fetch, decode and execute cycle. -/
def step (s : State) : Host.Outcome State Fault Refusal := runCycle exec s

/-- `s` with the instruction whose bits are `w` where the next Step fetches it (log 3). -/
def State.withFetchWord (s : State) (nbits w : Nat) : State := placeBytes (tableBytes nbits w) s

end Sys2Proof.Machine
end

