-- ==== Sys2Proof/Machine/Construct.lean ====
section
/-! DEFINITION. Construction, which is the block's reset (`70_reset_and_hazards.md` R93 to R95). -/

namespace Sys2Proof.Machine

/-- The free draws of R95: a value for each register the spec gives no reset value (D5). -/
structure Draws where
  a : Byte
  b : Byte
  c : Byte
  d : Byte
  e : Byte
  f : Byte
  h : Byte
  l : Byte
  sp : Word
  deriving DecidableEq, Repr

/-- The draws that `State.reset` takes (log 1). -/
def resetDraws : Draws :=
  { a := Config.resetByte, b := Config.resetByte, c := Config.resetByte, d := Config.resetByte,
    e := Config.resetByte, f := Config.resetByte, h := Config.resetByte, l := Config.resetByte,
    sp := Config.resetSp }

/-- The reset state of R95 for an image, a boot-mapped bit and the draws; F keeps only its high nibble (R12). -/
def resetState (image : List Byte) (bm0 : Bool) (w : Draws) : State :=
  { a := w.a, b := w.b, c := w.c, d := w.d, e := w.e, f := w.f &&& 0xF0, h := w.h, l := w.l, sp := w.sp
    pc := Config.resetPc, bm := bm0, boot := Memory.ofImage image, fault := none }

/-- `Build(image, bm0)` (R93): an image of any size but 256 bytes builds no block (R82). The draws stand for the values
the spec leaves free. -/
def build (image : List Byte) (bm0 : Bool) (w : Draws) : Answer State :=
  if image.length = Config.bootSize then .ok (resetState image bm0 w)
  else .err (.bootstrapLoadError Config.bootSize image.length)

end Sys2Proof.Machine
end

