-- ==== Sys2Proof/Machine/Interface.lean ====
section
/-! DEFINITION. Execute and Step as the host calls them, with what they return (`40_engine.md` R66, R68), and every
interaction the host has with a built block (`70_reset_and_hazards.md` R97). -/

namespace Sys2Proof.Machine

/-- `Execute(i)` (R66): it dispatches on `i.op`, and nothing else of the record is read (R71). -/
def execute (i : Instruction) (s : State) : Reply Unit :=
  match exec i.op s with
  | .next t => ⟨.ok (), t⟩
  | .fault (.latched e) => ⟨.err e, s⟩
  | .refused q => ⟨.refused q, s⟩

/-- `Step()` (R68): it returns the Instruction it executed. -/
def stepReply : State → Reply Instruction :=
  guarded fun s => (fetchDecode s).andThen fun i t => (execute i t).andThen fun _ u => ⟨.ok i, u⟩

/-- What the host may do to a built block (R97). Reading an Instruction's fields is a projection of the record, and
stopping to call is no call. -/
inductive Interaction where
  | step
  | fetch
  | decode (byte : Byte) (origin : Word)
  | execute (i : Instruction)
  | classify (address : Word) (bm : Bool)
  | read8 (r : Reg8)
  | read16 (p : Reg16)
  | write8 (r : Reg8) (v : Byte)
  | write16 (p : Reg16) (v : Word)
  deriving DecidableEq, Repr

/-- What the host gets back (R97). -/
inductive Response where
  | done
  | byte (v : Byte)
  | word (v : Word)
  | region (r : Region)
  | instruction (i : Instruction)
  deriving DecidableEq, Repr

/-- A transition's value as a response. -/
def Reply.respond {α : Type} (r : Reply α) (k : α → Response) : Reply Response :=
  r.andThen fun v s => ⟨.ok (k v), s⟩

/-- One interaction (R97). A direct call of `classify` sets no latch (`60_exceptions.md` R83). The register operations
look at no latch (log 5). -/
def interact (x : Interaction) (s : State) : Reply Response :=
  match x with
  | .step => (stepReply s).respond .instruction
  | .fetch => (fetch s).respond .byte
  | .decode byte origin => (decodeAt byte origin s).respond .instruction
  | .execute i => (execute i s).respond fun _ => .done
  | .classify a bm => (Reply.mk (classify a bm) s).respond .region
  | .read8 r => ⟨.ok (.byte (s.read8 r)), s⟩
  | .read16 p => ⟨.ok (.word (s.read16 p)), s⟩
  | .write8 r v => ⟨.ok .done, s.write8 r v⟩
  | .write16 p v => ⟨.ok .done, s.write16 p v⟩

end Sys2Proof.Machine
end

