-- ==== Sys2Proof/Safety.lean ====
section
/-! DEFINITION. What a claim means by a sound state, a reachable state and a successful step. -/

namespace Sys2Proof.Machine

/-- No error has ended the run (`60_exceptions.md` R85). -/
abbrev State.Running (s : State) : Prop := s.fault = none

/-- What holds of every state a host can reach: F's low nibble is zero (`10_state.md` R12), the store is in canonical
form, and PC has not passed the boot window's end (`10_state.md` R16, corner case). -/
structure State.Inv (s : State) : Prop where
  lowNibble : s.f &&& 0x0F = 0
  store : s.boot.wf = true
  pcInWindow : s.pc.toNat ≤ 0x0100

/-- What the latch can hold in a run of Steps, and where PC then stands (`60_exceptions.md` R77, R78, R80, R84). -/
def State.LatchSound (s : State) : Prop :=
  match s.fault with
  | none => True
  | some (.invalidBootstrapAccess a) => s.bm = true ∧ a = 0x0100 ∧ s.pc = 0x0100
  | some (.unimplementedOpcode byte origin) =>
    s.bm = true ∧ s.pc = origin + 1 ∧ origin.toNat ≤ 0x00FF ∧ s.boot.read origin.toNat = byte ∧
      opcodeOfByte byte = none
  | some (.unimplementedRegion r) => s.bm = false ∧ r = .cartridgeBankZero s.pc
  | some _ => False

/-- What holds of every state a run of Steps reaches. -/
structure State.RunInv (s : State) : Prop where
  inv : s.Inv
  latch : s.LatchSound

/-- A state some sequence of the host's interactions reaches from a built block `s0` (`70_reset_and_hazards.md` R97). -/
inductive ReachableFrom (s0 : State) : State → Prop where
  | start : ReachableFrom s0 s0
  | interacted (s : State) (x : Interaction) (h : ReachableFrom s0 s) : ReachableFrom s0 (interact x s).state

/-- A state that is reachable from some build (R93, R97). -/
def State.Reachable (s : State) : Prop :=
  ∃ (image : List Byte) (bm0 : Bool) (w : Draws) (s0 : State), build image bm0 w = .ok s0 ∧ ReachableFrom s0 s

/-- Two states that differ in registers other than PC only: nothing that steers the engine tells them apart. -/
def State.SameControl (s t : State) : Prop :=
  s.pc = t.pc ∧ s.bm = t.bm ∧ s.boot = t.boot ∧ s.fault = t.fault

end Sys2Proof.Machine
end

