-- ==== Sys2Proof/Certificates/Slice0/Obligations.lean ====
section
/-! DEFINITION. The statements for the provers. Each cites the rule of spec/ it formalises; one that rests on a decision
of `92_eei_decisions.md`, on an inference the spec marks as its own, or on a choice of the model says so. -/

open Sys2Proof Sys2Proof.Machine

/-! ### Encoding -/

/-- Decode and encode agree (`30_encoding.md` R50 to R52): decoding the bytes of any instruction, with its immediate at
any value and any bytes after it, gives that instruction and those bytes. Every `Instr` is well formed. That a stream is
a list of bytes is the model's choice (log 7). -/
def Obligations.DecodeOfEncodeIsTheInstruction : Prop :=
  ∀ (i : Instr) (rest : List Byte), decode (encode i ++ rest) = .ok (i, rest)

/-- An instruction has one encoding only (R51, R52, R56): the bytes decoded are exactly its encoding, as many as the
opcode alone decides (R49). -/
def Obligations.EachInstructionHasOneEncoding : Prop :=
  ∀ (bytes : List Byte) (i : Instr) (rest : List Byte), decode bytes = .ok (i, rest) →
    bytes = encode i ++ rest ∧ (encode i).length = lengthOf (opcodeOf i)

/-- Words written out bit by bit from R51 and R52, with operands from `95_test_vectors.md` W7, W9 and V-DE. -/
def Obligations.WordsWrittenFromTheSpecDecode : Prop :=
  decode [0b00110001#8, 0b11111110#8, 0b11111111#8] = .ok (.ldSpD16 0xFFFE, []) ∧
  decode [0b10101111#8] = .ok (.xorA, []) ∧
  decode [0b00100001#8, 0b00110100#8, 0b00010010#8] = .ok (.ldHlD16 0x1234, []) ∧
  decode [0b11001011#8, 0b00000000#8] = .error (.unimplementedOpcode 0xCB)

/-- R80: Decode raises `UnimplementedOpcode{byte, address}` for each of the bytes outside the three opcodes, with the
opcode byte and its origin, and for no other byte. -/
def Obligations.DecodeReportsEveryUnimplementedOpcode : Prop :=
  ∀ (byte : Byte) (origin : Word) (s : State), s.Running →
    ((decodeAt byte origin s).answer = .err (.unimplementedOpcode byte origin) ↔
      byte ≠ 0x31 ∧ byte ≠ 0xAF ∧ byte ≠ 0x21)

/-- After an unimplemented opcode no operand byte is fetched (R54, the spec's decision D16), no register changes, PC
among them, and the latch holds the error (R84, D7). -/
def Obligations.UnimplementedOpcodeFetchesNoOperand : Prop :=
  ∀ (byte : Byte) (origin : Word) (s : State), s.Running → byte ≠ 0x31 → byte ≠ 0xAF → byte ≠ 0x21 →
    (decodeAt byte origin s).state = { s with fault := some (.unimplementedOpcode byte origin) }

/-- R67: for every Instruction Decode returns, the length is 1 + the number of operand bytes Decode fetched, which is
how far PC moved in Decode, and PC is then origin + length (where the origin is PC before the opcode Fetch). The record is well formed, its
origin is the one given, and Decode changed nothing but PC. -/
def Obligations.DecodedLengthIsTheBytesConsumed : Prop :=
  ∀ (byte : Byte) (origin : Word) (s t : State) (i : Instruction), decodeAt byte origin s = ⟨.ok i, t⟩ →
    i.length = 1 + (t.pc - s.pc).toNat ∧ (s.pc = origin + 1 → t.pc = origin + BitVec.ofNat 16 i.length) ∧
    i.wf = true ∧ i.origin = origin ∧ t = { s with pc := t.pc }

/-- R57 to R59: the hex form is `0x` and four lowercase digits, most significant first, whatever the value (the padding
is the spec's decision D14). -/
def Obligations.HexTextIsFourLowercaseDigits : Prop :=
  ∀ v : Word, ∃ d3 d2 d1 d0 : Fin 16,
    let digit : Fin 16 → Char := fun n =>
      ['0', '1', '2', '3', '4', '5', '6', '7', '8', '9', 'a', 'b', 'c', 'd', 'e', 'f'].getD n.val ' '
    hexText v = String.ofList ['0', 'x', digit d3, digit d2, digit d1, digit d0] ∧
      v.toNat = d3.val * 4096 + d2.val * 256 + d1.val * 16 + d0.val

/-! ### The register file and the flags -/

/-- R11: writing an 8-bit register other than F stores the value unchanged, and changes no other register. Nothing else
of the state changes either. -/
def Obligations.WritingAByteRegisterChangesThatRegisterOnly : Prop :=
  ∀ (s : State) (r : Reg8) (v : Byte), r ≠ .f →
    (s.write8 r v).read8 r = v ∧ (∀ r', r' ≠ r → (s.write8 r v).read8 r' = s.read8 r') ∧
    (s.write8 r v).sp = s.sp ∧ (s.write8 r v).pc = s.pc ∧ (s.write8 r v).bm = s.bm ∧
    (s.write8 r v).boot = s.boot ∧ (s.write8 r v).fault = s.fault

/-- R12: every path that writes F keeps only the high nibble, and the low nibble of F is zero in every reachable state,
the reset state among them, whatever the image and the draws. (The AF line of `write16` is the spec's decision D4;
R12 names it.) -/
def Obligations.LowNibbleOfFIsZeroInEveryReachableState : Prop :=
  (∀ (s : State) (v : Byte), s.write8 .f v = { s with f := v &&& 0xF0 }) ∧
  (∀ (s : State) (v : Word), (s.write16 .af v).read8 .f = loByte v &&& 0xF0) ∧
  (∀ (s : State) (result : Byte), (s.setFlags result).read8 .f &&& 0x0F = 0) ∧
  (State.reset.read8 .f &&& 0x0F = 0) ∧
  (∀ s : State, s.Reachable → s.read8 .f &&& 0x0F = 0)

/-- R13: a pair reads as its two registers, the first-named the high byte; SP reads as itself; and where F's low nibble
is zero so is AF's. -/
def Obligations.PairsReadHighByteFirst : Prop :=
  ∀ s : State,
    s.read16 .af = (s.a.zeroExtend 16 <<< 8) ||| s.f.zeroExtend 16 ∧
    s.read16 .bc = (s.b.zeroExtend 16 <<< 8) ||| s.c.zeroExtend 16 ∧
    s.read16 .de = (s.d.zeroExtend 16 <<< 8) ||| s.e.zeroExtend 16 ∧
    s.read16 .hl = (s.h.zeroExtend 16 <<< 8) ||| s.l.zeroExtend 16 ∧
    s.read16 .sp = s.sp ∧
    (s.f &&& 0x0F = 0 → s.read16 .af &&& 0x000F = 0)

/-- R14: a pair write splits into its two registers and changes no other; SP takes the whole value and no 8-bit register
changes; AF loses the low nibble of F (R12). The AF, BC and DE lines are the spec's decision D4. -/
def Obligations.WritingAPairWritesItsTwoHalves : Prop :=
  ∀ (s : State) (p : Reg16) (v : Word),
    (s.write16 p v).read16 p = (if p = .af then v &&& 0xFFF0 else v) ∧
    (∀ hi lo, pairHalves p = some (hi, lo) →
      (s.write16 p v).read8 hi = hiByte v ∧
      (s.write16 p v).read8 lo = (if p = .af then loByte v &&& 0xF0 else loByte v) ∧
      (∀ r, r ≠ hi → r ≠ lo → (s.write16 p v).read8 r = s.read8 r) ∧ (s.write16 p v).sp = s.sp) ∧
    (p = .sp → ∀ r, (s.write16 p v).read8 r = s.read8 r) ∧
    (s.write16 p v).pc = s.pc ∧ (s.write16 p v).bm = s.bm ∧ (s.write16 p v).boot = s.boot ∧
    (s.write16 p v).fault = s.fault

/-- R17 (derived there from R13 and R14): the pairs have no storage of their own; a byte written to a half is seen by the
pair at once. -/
def Obligations.PairSeesWritesToItsHalves : Prop :=
  ∀ (s : State) (p : Reg16) (hi lo : Reg8) (v : Byte), pairHalves p = some (hi, lo) →
    (s.write8 hi v).read16 p = joinBytes v (loByte (s.read16 p)) ∧
    (lo ≠ .f → (s.write8 lo v).read16 p = joinBytes (hiByte (s.read16 p)) v)

/-- R74: `set_flags` writes the whole of F: bit 7 is set exactly when the result is zero, bits 6 to 0 are cleared; it
reads nothing but its argument and writes nothing but F. -/
def Obligations.SetFlagsWritesZeroAndClearsTheRest : Prop :=
  ∀ (s : State) (result : Byte),
    s.setFlags result = { s with f := if result = 0 then 0x80 else 0x00 } ∧
    ((s.setFlags result).zeroFlag = true ↔ result = 0) ∧
    (∀ k < 7, (s.setFlags result).f.getLsbD k = false)

/-! ### The classifier and the Bus -/

/-- R29: the boot window, for the classifier and for any access, read or write. -/
def Obligations.BootWindowDecidesLowAddresses : Prop :=
  ∀ a : Word,
    (a.toNat ≤ 0x00FF → classify a true = .ok (.bootstrap a)) ∧
    (0x0100 ≤ a.toNat → a.toNat ≤ 0x3FFF →
      classify a true = .err (.invalidBootstrapAccess a) ∧
      ∀ s : State, s.bm = true →
        memRead a s = .err (.invalidBootstrapAccess a) ∧
        ∀ v, memWrite a v s = .err (.invalidBootstrapAccess a)) ∧
    (a.toNat ≤ 0x3FFF → classify a false = .ok (.cartridgeBankZero a))

/-- R26 and R31 from 0x4000 up, with the literal bounds of the table, under either value of `bm`. The offset is the
address less the range's first address (the spec's decision D10). -/
def Obligations.RegionTableAboveTheBootWindow : Prop :=
  ∀ (a : Word) (bm : Bool),
    (0x4000 ≤ a.toNat ∧ a.toNat ≤ 0x7FFF →
      classify a bm = .ok (.cartridgeBankSwitchable (BitVec.ofNat 16 (a.toNat - 0x4000)))) ∧
    (0x8000 ≤ a.toNat ∧ a.toNat ≤ 0x9FFF → classify a bm = .ok (.vram (BitVec.ofNat 16 (a.toNat - 0x8000)))) ∧
    (0xA000 ≤ a.toNat ∧ a.toNat ≤ 0xBFFF →
      classify a bm = .ok (.cartridgeRam (BitVec.ofNat 16 (a.toNat - 0xA000)))) ∧
    (0xC000 ≤ a.toNat ∧ a.toNat ≤ 0xCFFF → classify a bm = .ok (.workRam (BitVec.ofNat 16 (a.toNat - 0xC000)))) ∧
    (0xD000 ≤ a.toNat ∧ a.toNat ≤ 0xDFFF → classify a bm = .ok (.workRam2 (BitVec.ofNat 16 (a.toNat - 0xD000)))) ∧
    (0xE000 ≤ a.toNat ∧ a.toNat ≤ 0xFDFF →
      classify a bm = .ok (.prohibitedEchoRam (BitVec.ofNat 16 (a.toNat - 0xE000)))) ∧
    (0xFE00 ≤ a.toNat ∧ a.toNat ≤ 0xFE9F →
      classify a bm = .ok (.objectAttributeMemory (BitVec.ofNat 16 (a.toNat - 0xFE00)))) ∧
    (0xFEA0 ≤ a.toNat ∧ a.toNat ≤ 0xFEFF → classify a bm = .ok (.prohibited (BitVec.ofNat 16 (a.toNat - 0xFEA0)))) ∧
    (0xFF00 ≤ a.toNat ∧ a.toNat ≤ 0xFF7F → classify a bm = .ok (.ioRegisters (BitVec.ofNat 16 (a.toNat - 0xFF00)))) ∧
    (0xFF80 ≤ a.toNat ∧ a.toNat ≤ 0xFFFE → classify a bm = .ok (.hiRam (BitVec.ofNat 16 (a.toNat - 0xFF80)))) ∧
    (a.toNat = 0xFFFF → classify a bm = .ok .interruptEnableRegister)

/-- R27 (derived there from R26): the regions the map holds under `bm` are disjoint and, with the failing band, cover
every address. A region value with an offset inside its size is the answer at one address and no other. -/
def Obligations.RegionsPartitionTheAddressSpace : Prop :=
  (∀ (a : Word) (bm : Bool) (r : Region),
    classify a bm = .ok r ↔
      regionMapped bm r = true ∧ regionOffset r < regionSize r ∧ a.toNat = regionFirst r + regionOffset r) ∧
  (∀ (a : Word) (bm : Bool),
    (∃ r, classify a bm = .ok r) ∨
      (classify a bm = .err (.invalidBootstrapAccess a) ∧ bm = true ∧ 0x0100 ≤ a.toNat ∧ a.toNat ≤ 0x3FFF))

/-- R35: a Bus read classifies, answers the store's byte for Bootstrap and raises `UnimplementedRegion` with the region
for any other; a read that succeeds changes no state, and one that raises changes no register and latches its
error. -/
def Obligations.BusReadAnswersTheStoreOrRaises : Prop :=
  ∀ (a : Word) (s : State), s.Running →
    (∀ off, classify a s.bm = .ok (.bootstrap off) →
      memRead a s = .ok (s.boot.read off.toNat) ∧ busRead a s = ⟨.ok (s.boot.read off.toNat), s⟩) ∧
    (∀ r, classify a s.bm = .ok r → (∀ off, r ≠ .bootstrap off) →
      memRead a s = .err (.unimplementedRegion r) ∧
      busRead a s = ⟨.err (.unimplementedRegion r), { s with fault := some (.unimplementedRegion r) }⟩) ∧
    (∀ e, classify a s.bm = .err e →
      memRead a s = .err e ∧ busRead a s = ⟨.err e, { s with fault := some e }⟩)

/-- R37, R38, R88: every Bus write raises and stores nothing: classification first, then read-only, then the missing
store (the order of the last two is the spec's decision D8; the latch is D6). -/
def Obligations.NoBusWriteSucceeds : Prop :=
  ∀ (a : Word) (v : Byte) (s : State), s.Running →
    ∃ e, busWrite a v s = ⟨.err e, { s with fault := some e }⟩ ∧
      (s.bm = true → a.toNat ≤ 0x00FF → e = .readOnlyRegion (.bootstrap a)) ∧
      (s.bm = true → 0x0100 ≤ a.toNat → a.toNat ≤ 0x3FFF → e = .invalidBootstrapAccess a) ∧
      (s.bm = false → a.toNat ≤ 0x3FFF → e = .readOnlyRegion (.cartridgeBankZero a)) ∧
      (0x4000 ≤ a.toNat → a.toNat ≤ 0x7FFF →
        e = .readOnlyRegion (.cartridgeBankSwitchable (BitVec.ofNat 16 (a.toNat - 0x4000)))) ∧
      (0x8000 ≤ a.toNat → ∃ r, classify a s.bm = .ok r ∧ e = .unimplementedRegion r)

/-- R39 to R42, R81: the Bootstrap store's own reads on a running block: while mapped, the byte, and `read16`
little-endian with no state changed; at offset 0xFF `read16` is refused (the spec's decision D15, log 9); while unmapped
`NotMapped`, which the latch then holds and nothing else changes. That the latch is set, and that a latched block answers
its error again, is the model's reading (log 11, from `93_implementation_defined.md` I5 and D6). -/
def Obligations.BootstrapStoreReads : Prop :=
  ∀ (off : Byte) (s : State),
    (s.Running → s.bm = true → bootRead8 off s = ⟨.ok (s.boot.read off.toNat), s⟩) ∧
    (s.Running → s.bm = true → off ≠ 0xFF →
      bootRead16 off s =
        ⟨.ok (((s.boot.read (off.toNat + 1)).zeroExtend 16 <<< 8) ||| (s.boot.read off.toNat).zeroExtend 16), s⟩) ∧
    (s.Running → s.bm = true → off = 0xFF → bootRead16 off s = ⟨.refused .bootRead16AtEnd, s⟩) ∧
    (s.Running → s.bm = false →
      bootRead8 off s = ⟨.err .notMapped, { s with fault := some .notMapped }⟩ ∧
      bootRead16 off s = ⟨.err .notMapped, { s with fault := some .notMapped }⟩) ∧
    (∀ e, s.fault = some e → bootRead8 off s = ⟨.err e, s⟩ ∧ bootRead16 off s = ⟨.err e, s⟩)

/-- R45, R47: no write succeeds, so in every state the host reaches from a block built mapped, a read of the boot window
sees the image the block was built from. -/
def Obligations.EveryReadSeesTheConstructionImage : Prop :=
  ∀ (image : List Byte) (w : Draws) (s0 s : State) (a : Word) (byte : Byte),
    build image true w = .ok s0 → ReachableFrom s0 s → image[a.toNat]? = some byte → memRead a s = .ok byte

/-! ### Construction and reset -/

/-- R82: an image that does not have 256 bytes builds no block: the build answers `BootstrapLoadError{256, n}`, and it
answers that for no other image. -/
def Obligations.WrongImageSizeBuildsNoBlock : Prop :=
  ∀ (image : List Byte) (bm0 : Bool) (w : Draws),
    (build image bm0 w = .err (.bootstrapLoadError 256 image.length) ↔ image.length ≠ 256) ∧
    (image.length ≠ 256 → ∀ s, build image bm0 w ≠ .ok s)

/-- R93, R95: an image of 256 bytes builds a block whose store holds the image in order, with PC at 0x0000, the
boot-mapped bit as asked, no fault, and the other registers at their draws, F's low nibble zero (the spec's decisions
D5 and D6). -/
def Obligations.BuildGivesTheResetState : Prop :=
  ∀ (image : List Byte) (bm0 : Bool) (w : Draws), image.length = 256 →
    ∃ s, build image bm0 w = .ok s ∧
      (∀ (n : Nat) (byte : Byte), image[n]? = some byte → s.boot.read n = byte) ∧ s.boot.wf = true ∧
      s.pc = 0x0000 ∧ s.bm = bm0 ∧ s.fault = none ∧
      s.a = w.a ∧ s.b = w.b ∧ s.c = w.c ∧ s.d = w.d ∧ s.e = w.e ∧ s.f = w.f &&& 0xF0 ∧ s.h = w.h ∧ s.l = w.l ∧
      s.sp = w.sp

/-- The values R95 fixes, in `State.reset`, and that `State.reset` is itself a built block: the one whose image is 256
bytes of 0x00 (the model's choice, log 2) and whose draws are all zero (the model's choice, log 1). -/
def Obligations.ResetStateIsABuild : Prop :=
  State.reset.pc = 0x0000 ∧ State.reset.bm = true ∧ State.reset.fault = none ∧ State.reset.f &&& 0x0F = 0 ∧
  build (List.replicate 256 0x00) true resetDraws = .ok State.reset

/-! ### The instructions -/

/-- R72, `LD SP,d16`: Execute sets SP to the immediate and changes nothing else; the bytes `31 lo hi` decode to the
record of R63 with length 3 and cycles 12; Execute never raises; if an operand Fetch raises, the Step raises that error,
which is the one R72 names for the byte's address, and SP is unchanged. The text is R58's; that a small immediate is padded
is the spec's decision D14 (log 8). -/
def Obligations.LdSpD16LoadsSp : Prop :=
  (∀ (imm16 : Word) (s : State), s.Running → exec (.ldSpD16 imm16) s = .next { s with sp := imm16 }) ∧
  (∀ (s : State) (lo hi : Byte), s.Running →
    memRead s.pc s = .ok 0x31 → memRead (s.pc + 1) s = .ok lo → memRead (s.pc + 2) s = .ok hi →
      fetchDecode s =
        ⟨.ok { origin := s.pc, text := "LD SP, " ++ hexText (joinBytes hi lo) ++ " ;$" ++ hexText s.pc,
               cycles := 12, length := 3, imm16 := some (joinBytes hi lo), op := .ldSpD16 (joinBytes hi lo) },
         { s with pc := s.pc + 3 }⟩) ∧
  (∀ (s : State) (a : Word), s.Running → memRead s.pc s = .ok 0x31 →
    a = s.pc + 1 ∨ (a = s.pc + 2 ∧ ∃ lo, memRead (s.pc + 1) s = .ok lo) →
    (∀ byte, memRead a s ≠ .ok byte) →
      ∃ e t, stepReply s = ⟨.err e, t⟩ ∧ t.sp = s.sp ∧
        ((e = .invalidBootstrapAccess a ∧ s.bm = true ∧ 0x0100 ≤ a.toNat ∧ a.toNat ≤ 0x3FFF) ∨
          ∃ r, e = .unimplementedRegion r ∧ classify a s.bm = .ok r ∧ ∀ off, r ≠ .bootstrap off))

/-- R73, `LD HL,d16`: Execute sets H to the high byte and L to the low byte and changes nothing else, which is
`write16(HL, imm16)`, so HL then reads as the immediate; decoding and errors as in R72. The text is R58's, and its `LD HL`
line and the padding of its hex numbers are the spec's decision D14 (log 8). -/
def Obligations.LdHlD16LoadsHl : Prop :=
  (∀ (imm16 : Word) (s : State), s.Running →
    exec (.ldHlD16 imm16) s = .next { s with h := imm16.extractLsb' 8 8, l := imm16.extractLsb' 0 8 } ∧
    exec (.ldHlD16 imm16) s = .next (s.write16 .hl imm16) ∧ (s.write16 .hl imm16).read16 .hl = imm16) ∧
  (∀ (s : State) (lo hi : Byte), s.Running →
    memRead s.pc s = .ok 0x21 → memRead (s.pc + 1) s = .ok lo → memRead (s.pc + 2) s = .ok hi →
      fetchDecode s =
        ⟨.ok { origin := s.pc, text := "LD HL, " ++ hexText (joinBytes hi lo) ++ " ;$" ++ hexText s.pc,
               cycles := 12, length := 3, imm16 := some (joinBytes hi lo), op := .ldHlD16 (joinBytes hi lo) },
         { s with pc := s.pc + 3 }⟩) ∧
  (∀ (s : State) (a : Word), s.Running → memRead s.pc s = .ok 0x21 →
    a = s.pc + 1 ∨ (a = s.pc + 2 ∧ ∃ lo, memRead (s.pc + 1) s = .ok lo) →
    (∀ byte, memRead a s ≠ .ok byte) →
      ∃ e t, stepReply s = ⟨.err e, t⟩ ∧ t.h = s.h ∧ t.l = s.l ∧
        ((e = .invalidBootstrapAccess a ∧ s.bm = true ∧ 0x0100 ≤ a.toNat ∧ a.toNat ≤ 0x3FFF) ∨
          ∃ r, e = .unimplementedRegion r ∧ classify a s.bm = .ok r ∧ ∀ off, r ≠ .bootstrap off))

/-- R75, `XOR A`: Execute leaves A = 0x00 and F = 0x80, whatever A and F were, and changes nothing else; the byte `AF`
decodes to the record of R63 with length 1, cycles 4 and no immediate, and only the opcode Fetch can fail. -/
def Obligations.XorAClearsAAndSetsZero : Prop :=
  (∀ s : State, s.Running → exec .xorA s = .next { s with a := 0x00, f := 0x80 }) ∧
  (∀ (s : State) (origin : Word), s.Running →
    decodeAt 0xAF origin s =
      ⟨.ok { origin := origin, text := "XOR A ;$" ++ hexText origin, cycles := 4, length := 1, imm16 := none,
             op := .xorA }, s⟩) ∧
  (∀ s : State, s.Running → memRead s.pc s = .ok 0xAF →
    ∃ i, stepReply s = ⟨.ok i, { s with a := 0x00, f := 0x80, pc := s.pc + 1 }⟩)

/-- R66 (derived there), for every instruction: Execute on a block with no fault latched completes. -/
def Obligations.EveryInstructionCompletesWhenRunning : Prop :=
  ∀ (i : Instr) (s : State), s.Running → ∃ t, exec i s = .next t ∧ t.Running ∧ t.pc = s.pc

/-- The frame of the three instructions (R66, R72, R73, R75): Execute changes no register but the destinations (SP; H
and L; A, and F as the flag register), no flag in the two loads, not PC, not the boot-mapped bit or the latch, and no
byte of memory, read at any address. -/
def Obligations.ExecuteChangesOnlyTheDestinations : Prop :=
  ∀ (i : Instr) (s t : State), exec i s = .next t →
    (∀ r, (i = .xorA → r ≠ .a ∧ r ≠ .f) → (opcodeOf i = .ldHlD16 → r ≠ .h ∧ r ≠ .l) → t.read8 r = s.read8 r) ∧
    (opcodeOf i ≠ .ldSpD16 → t.sp = s.sp) ∧
    t.pc = s.pc ∧ t.bm = s.bm ∧ t.fault = s.fault ∧ t.boot = s.boot ∧
    (∀ a, memRead a t = memRead a s)

/-- R71: of the Instruction, Execute reads `op` alone; nothing reads its text, cycles, length, origin or `imm16`. -/
def Obligations.ExecuteReadsOnlyTheBoundBehaviour : Prop :=
  ∀ (i j : Instruction) (s : State), i.op = j.op → execute i s = execute j s

/-! ### Fetch and the cycle -/

/-- R62: Fetch answers the byte at PC and advances PC by one modulo 2^16 (the wrap is the spec's decision D2); a Fetch
that raises leaves PC, and changes only the latch (D7); a latched block answers its error again (D6). -/
def Obligations.FetchReadsThenAdvances : Prop :=
  ∀ s : State,
    (∀ byte, s.Running → memRead s.pc s = .ok byte →
      fetch s = ⟨.ok byte, { s with pc := BitVec.ofNat 16 (s.pc.toNat + 1) }⟩) ∧
    (∀ e, s.Running → memRead s.pc s = .err e → fetch s = ⟨.err e, { s with fault := some e }⟩) ∧
    (∀ e, s.fault = some e → fetch s = ⟨.err e, s⟩)

/-- R68: a Step runs the decoded instruction. Where the bytes Fetch can read at PC decode to an instruction, the step is
Execute of that instruction with PC past its bytes. -/
def Obligations.StepExecutesTheInstructionAtPc : Prop :=
  ∀ (s : State) (i : Instr) (rest : List Byte), s.Running →
    decode (readableBytes maxLength s.pc s) = .ok (i, rest) →
      step s = exec i { s with pc := s.pc + BitVec.ofNat 16 (lengthOf (opcodeOf i)) }

/-- R70 (derived there): control flow is sequential only. A Step that returns an Instruction returns the one whose
origin was PC, well formed, and PC is then origin + length, the origin of the next Step. -/
def Obligations.ControlFlowIsSequential : Prop :=
  ∀ (s t : State) (i : Instruction), stepReply s = ⟨.ok i, t⟩ →
    i.wf = true ∧ i.origin = s.pc ∧ t.pc = s.pc + BitVec.ofNat 16 i.length ∧ (i.length = 1 ∨ i.length = 3) ∧
    readableBytes i.length s.pc s = encode i.op ∧ t.Running

/-- The step of the host's interface says what `Step()` of R68 says (the three outcomes are the model's choice, log 4):
on a latched block it is the fault that names the latched error, and `Step()` answers that error and changes nothing;
on a running block it is a next state, `Step()`'s, and the latch tells whether `Step()` answered an Instruction. -/
def Obligations.StepOutcomeAgreesWithStepReply : Prop :=
  ∀ s : State,
    (∀ e, s.fault = some e → step s = .fault (.latched e) ∧ stepReply s = ⟨.err e, s⟩) ∧
    (s.Running →
      step s = .next (stepReply s).state ∧
      ((∃ i, (stepReply s).answer = .ok i ∧ (stepReply s).state.fault = none) ∨
        ∃ e, (stepReply s).answer = .err e ∧ (stepReply s).state.fault = some e))

/-- R95: no instruction's result depends on what a register held before, in a way that steers the engine: two states
that agree on PC, the boot-mapped bit, the store and the latch give the same answer to a Step and agree on all of these
after it. -/
def Obligations.RegistersDoNotSteerTheEngine : Prop :=
  ∀ s t : State, s.SameControl t →
    (stepReply s).answer = (stepReply t).answer ∧ (stepReply s).state.SameControl (stepReply t).state

/-! ### Errors and the latch -/

/-- R87 (derived there): the order of errors in a Step: the opcode Fetch, the opcode check, the low operand Fetch, the
high operand Fetch. -/
def Obligations.StepRaisesTheFirstErrorInOrder : Prop :=
  ∀ (s : State) (e : Error) (byte : Byte), s.Running →
    (memRead s.pc s = .err e → (stepReply s).answer = .err e) ∧
    (memRead s.pc s = .ok byte → opcodeOfByte byte = none →
      (stepReply s).answer = .err (.unimplementedOpcode byte s.pc)) ∧
    (memRead s.pc s = .ok byte → (byte = 0x31 ∨ byte = 0x21) → memRead (s.pc + 1) s = .err e →
      (stepReply s).answer = .err e) ∧
    (memRead s.pc s = .ok byte → (byte = 0x31 ∨ byte = 0x21) → (∃ lo, memRead (s.pc + 1) s = .ok lo) →
      memRead (s.pc + 2) s = .err e → (stepReply s).answer = .err e)

/-- R84, R86 (the spec's decision D7): a Step that raises leaves every register but PC, the store and the boot-mapped
bit as they were; PC has advanced once for each Fetch that succeeded, and the latch holds the error. -/
def Obligations.RaisingStepMovesOnlyPcAndLatch : Prop :=
  ∀ (s t : State) (e : Error), s.Running → stepReply s = ⟨.err e, t⟩ →
    ∃ n, n ≤ 2 ∧ t = { s with pc := s.pc + BitVec.ofNat 16 n, fault := some e } ∧
      (∀ k < n, ∃ byte, memRead (s.pc + BitVec.ofNat 16 k) s = .ok byte) ∧
      (memRead (s.pc + BitVec.ofNat 16 n) s = .err e ∨
        (n = 1 ∧ ∃ byte, memRead s.pc s = .ok byte ∧ e = .unimplementedOpcode byte s.pc))

/-- R69, R85 (the spec's decision D6): the latch is sticky. On a latched block Fetch, Decode, Execute and Step answer the
latched error and change nothing, `exec` and `step` stop with it, and no interaction clears or changes the latch. That
`exec` and `step` of a latched block are the outcome fault `latched e` is the model's choice (log 4). -/
def Obligations.FaultLatchIsSticky : Prop :=
  ∀ (s : State) (e : Error), s.fault = some e →
    fetch s = ⟨.err e, s⟩ ∧ (∀ byte origin, decodeAt byte origin s = ⟨.err e, s⟩) ∧
    (∀ i, execute i s = ⟨.err e, s⟩) ∧ stepReply s = ⟨.err e, s⟩ ∧
    (∀ i, exec i s = .fault (.latched e)) ∧ step s = .fault (.latched e) ∧
    (∀ x, (interact x s).state.fault = some e)

/-- R79, R81, R82: no interaction with a running block answers `ReadOnlyRegion`, `NotMapped` or `BootstrapLoadError`, and
none is refused by the model. -/
def Obligations.HostSeesOnlyFetchAndDecodeErrors : Prop :=
  ∀ (x : Interaction) (s : State), s.Running →
    (∃ v, (interact x s).answer = .ok v) ∨ (∃ a, (interact x s).answer = .err (.invalidBootstrapAccess a)) ∨
    (∃ r, (interact x s).answer = .err (.unimplementedRegion r)) ∨
    (∃ byte a, (interact x s).answer = .err (.unimplementedOpcode byte a))

/-! ### The host interface -/

/-- R97 (the spec's decision D20): no interaction changes the Bootstrap store or the boot-mapped bit; only Fetch, Decode
and Step move PC; reading, and `classify`, change nothing; a register write changes neither PC nor the latch. That the
register operations look at no latch, so that they have their effect on a latched block too, is the model's reading
(log 5). -/
def Obligations.HostCannotReachBeyondItsRights : Prop :=
  ∀ (x : Interaction) (s : State),
    (interact x s).state.boot = s.boot ∧ (interact x s).state.bm = s.bm ∧
    (x ≠ .step → x ≠ .fetch → (∀ byte origin, x ≠ .decode byte origin) → (interact x s).state.pc = s.pc) ∧
    (∀ a bm, x = .classify a bm → (interact x s).state = s) ∧
    (∀ r, x = .read8 r → interact x s = ⟨.ok (.byte (s.read8 r)), s⟩) ∧
    (∀ p, x = .read16 p → interact x s = ⟨.ok (.word (s.read16 p)), s⟩) ∧
    (∀ r v, x = .write8 r v → interact x s = ⟨.ok .done, s.write8 r v⟩) ∧
    (∀ p v, x = .write16 p v → interact x s = ⟨.ok .done, s.write16 p v⟩)

/-- The next step of a state that `withFetchWord` made runs the instruction the decoder reads from that word (the
model's own rule, log 3). -/
def Obligations.PlacedWordIsTheNextInstruction : Prop :=
  ∀ (s : State) (nbits w : Nat) (i : Instr), s.boot.wf = true → decodeTableWord nbits w = some i →
    step (s.withFetchWord nbits w) =
      exec i { s.withFetchWord nbits w with
        pc := (s.withFetchWord nbits w).pc + BitVec.ofNat 16 (lengthOf (opcodeOf i)) }

/-! ### Invariants and whole runs -/

/-- The invariant of every reachable state, and that of a run, hold at reset (R95). The registers R95
leaves free and the image are the model's choice in `State.reset` (logs 1 and 2). -/
def Obligations.InvariantsHoldAtReset : Prop := State.reset.Inv ∧ State.reset.RunInv

/-- Every block that builds meets both invariants, whatever its image, its boot-mapped bit and its draws (R93, R95). -/
def Obligations.EveryBuildMeetsTheInvariants : Prop :=
  ∀ (image : List Byte) (bm0 : Bool) (w : Draws) (s : State), build image bm0 w = .ok s → s.RunInv

/-- Every interaction of the host keeps the invariant: F's low nibble zero (R12), the store in canonical form, PC not
past 0x0100 (R16, corner case). -/
def Obligations.EveryInteractionKeepsTheInvariant : Prop :=
  ∀ (x : Interaction) (s : State), s.Inv → (interact x s).state.Inv

/-- Every step keeps the invariant of a run: besides the above, the latch holds only what a running block can raise, and
PC stands where R77, R78, R80 and R84 say (the state after an error is the spec's decision D7; that a Step that raises is
a next state is the model's choice, log 4). -/
def Obligations.EveryStepKeepsTheRunInvariant : Prop :=
  ∀ s t : State, s.RunInv → step s = .next t → t.RunInv

/-- R98 (derived there): every run of a block built mapped ends within 257 Steps: at most 256 succeed, and the next one
raises, after which every step is the fault that names the error (that a latched block's step is this outcome is the
model's choice, log 4; the sticky latch is the spec's decision D6). -/
def Obligations.EveryRunEndsWithin257Steps : Prop :=
  ∀ (image : List Byte) (w : Draws) (s : State), build image true w = .ok s →
    ∃ (k : Nat) (t u : State) (e : Error), k ≤ 256 ∧ Host.Core.run Sys2Proof.core k s = .next t ∧ t.Running ∧
      step t = .next u ∧ u.fault = some e ∧ step u = .fault (.latched e)

/-- R78, R96 (derived there): the first Step of a block built unmapped raises
`UnimplementedRegion{CartridgeBankZero(0x0000)}` and moves nothing but the latch. -/
def Obligations.UnmappedBlockRaisesAtItsFirstStep : Prop :=
  ∀ (image : List Byte) (w : Draws) (s : State), build image false w = .ok s →
    stepReply s =
      ⟨.err (.unimplementedRegion (.cartridgeBankZero 0x0000)),
       { s with fault := some (.unimplementedRegion (.cartridgeBankZero 0x0000)) }⟩
end

