-- ==== Sys2Proof/Laws/Bits.lean ====
section
/-! SUPPORT. The halves of a word and the opcode map: the small lemmas. -/

namespace Sys2Proof.Machine

theorem getLsbD_joinBytes (hi lo : Byte) (i : Nat) :
    (joinBytes hi lo).getLsbD i = if i < 8 then lo.getLsbD i else hi.getLsbD (i - 8) :=
  BitVec.getLsbD_append

theorem getLsbD_hiByte (v : Word) (i : Nat) : (hiByte v).getLsbD i = (decide (i < 8) && v.getLsbD (8 + i)) :=
  BitVec.getLsbD_extractLsb' 8 8 v i

theorem getLsbD_loByte (v : Word) (i : Nat) : (loByte v).getLsbD i = (decide (i < 8) && v.getLsbD i) := by
  simp [loByte, BitVec.getLsbD_extractLsb']

@[simp] theorem hiByte_joinBytes (hi lo : Byte) : hiByte (joinBytes hi lo) = hi := by
  apply BitVec.eq_of_getLsbD_eq
  intro i h
  rw [getLsbD_hiByte, getLsbD_joinBytes, if_neg (by omega)]
  simp [h]

@[simp] theorem loByte_joinBytes (hi lo : Byte) : loByte (joinBytes hi lo) = lo := by
  apply BitVec.eq_of_getLsbD_eq
  intro i h
  rw [getLsbD_loByte, getLsbD_joinBytes, if_pos h]
  simp [h]

@[simp] theorem joinBytes_halves (v : Word) : joinBytes (hiByte v) (loByte v) = v := by
  apply BitVec.eq_of_getLsbD_eq
  intro i h
  rw [getLsbD_joinBytes, getLsbD_hiByte, getLsbD_loByte]
  split
  · simp [*]
  · rw [show 8 + (i - 8) = i by omega]
    simp; omega

@[simp] theorem littleEndian_halves (v : Word) : littleEndian (loByte v) (hiByte v) = v := joinBytes_halves v

theorem opcodeOfByte_eq (byte : Byte) :
    opcodeOfByte byte =
      if byte = 0x31 then some .ldSpD16 else if byte = 0xAF then some .xorA
      else if byte = 0x21 then some .ldHlD16 else none := by
  revert byte; decide

@[simp] theorem opcodeOfByte_opcodeByte (o : Opcode) : opcodeOfByte (opcodeByte o) = some o := by
  cases o <;> decide

theorem opcodeByte_of_opcodeOfByte {byte : Byte} {o : Opcode} (h : opcodeOfByte byte = some o) :
    byte = opcodeByte o := by
  have := List.find?_some h
  exact (by simpa using this : opcodeByte o = byte).symm

/-- The map's bytes are pairwise different, so no byte has two meanings. -/
theorem opcodes_bytes_distinct : opcodes.Pairwise (fun o p => opcodeByte o ≠ opcodeByte p) := by decide

@[simp] theorem mkInstruction_origin (a : Word) (i : Instr) : (mkInstruction a i).origin = a := rfl
@[simp] theorem mkInstruction_op (a : Word) (i : Instr) : (mkInstruction a i).op = i := rfl
@[simp] theorem mkInstruction_length (a : Word) (i : Instr) :
    (mkInstruction a i).length = lengthOf (opcodeOf i) := rfl
@[simp] theorem mkInstruction_imm16 (a : Word) (i : Instr) : (mkInstruction a i).imm16 = imm16Of i := rfl

/-- Every record the decoder builds is well formed. -/
@[simp] theorem mkInstruction_wf (a : Word) (i : Instr) : (mkInstruction a i).wf = true := by
  simp [Instruction.wf, Instruction.immAgrees, Instruction.lengthAgrees, Instruction.cyclesAgree,
    Instruction.textAgrees, mkInstruction]

end Sys2Proof.Machine
end

