-- ==== Sys2Proof/Laws/Memory.lean ====
section
/-! SUPPORT. The Bootstrap store: read after write, and every memory operation keeps the canonical form. -/

namespace Sys2Proof.Machine.Memory

theorem wfFrom_cons {low k : Nat} {v : Byte} {m : Memory} :
    wfFrom low ((k, v) :: m) = true ↔
      low ≤ k ∧ k < Config.bootSize ∧ v ≠ Config.unlistedByte ∧ wfFrom (k + 1) m = true := by
  simp only [wfFrom, Bool.and_eq_true, decide_eq_true_eq, and_assoc]

theorem wfFrom_mono {low low' : Nat} {m : Memory} (h : wfFrom low m = true) (hl : low' ≤ low) :
    wfFrom low' m = true := by
  cases m with
  | nil => rfl
  | cons c m =>
    obtain ⟨k, v⟩ := c
    rw [wfFrom_cons] at h ⊢
    exact ⟨by omega, h.2⟩

/-- Below the first offset listed nothing is listed. -/
theorem read_below {low off : Nat} {m : Memory} (h : wfFrom low m = true) (ho : off < low) :
    read m off = Config.unlistedByte := by
  induction m generalizing low with
  | nil => rfl
  | cons c m ih =>
    obtain ⟨k, v⟩ := c
    rw [wfFrom_cons] at h
    rw [read, if_neg (by omega)]
    exact ih h.2.2.2 (by omega)

/-- Past the store's end nothing is listed. -/
theorem read_outside {low off : Nat} {m : Memory} (h : wfFrom low m = true) (ho : Config.bootSize ≤ off) :
    read m off = Config.unlistedByte := by
  induction m generalizing low with
  | nil => rfl
  | cons c m ih =>
    obtain ⟨k, v⟩ := c
    rw [wfFrom_cons] at h
    rw [read, if_neg (by omega)]
    exact ih h.2.2.2

/-- Canonical stores that read alike are equal. -/
theorem eq_of_read_eq {low : Nat} {m m' : Memory} (h : wfFrom low m = true) (h' : wfFrom low m' = true)
    (hr : ∀ off, low ≤ off → read m off = read m' off) : m = m' := by
  induction m generalizing low m' with
  | nil =>
    cases m' with
    | nil => rfl
    | cons c m' =>
      obtain ⟨k, v⟩ := c
      rw [wfFrom_cons] at h'
      have := hr k h'.1
      simp only [read, if_true] at this
      exact absurd this.symm h'.2.2.1
  | cons c m ih =>
    obtain ⟨k, v⟩ := c
    rw [wfFrom_cons] at h
    cases m' with
    | nil =>
      have := hr k h.1
      simp only [read, if_true] at this
      exact absurd this h.2.2.1
    | cons c' m' =>
      obtain ⟨k', v'⟩ := c'
      rw [wfFrom_cons] at h'
      have hkk : k = k' := by
        rcases Nat.lt_trichotomy k k' with hlt | heq | hlt
        · have := hr k h.1
          rw [read, if_pos rfl, read, if_neg (by omega), read_below h'.2.2.2 (by omega)] at this
          exact absurd this h.2.2.1
        · exact heq
        · have := hr k' h'.1
          rw [read, if_neg (by omega), read_below h.2.2.2 (by omega), read, if_pos rfl] at this
          exact absurd this.symm h'.2.2.1
      subst hkk
      have hv : v = v' := by simpa [read] using hr k h.1
      subst hv
      rw [ih h.2.2.2 h'.2.2.2 (fun off ho => by
        have := hr off (by omega)
        rwa [read, if_neg (by omega), read, if_neg (by omega)] at this)]

theorem read_erase {low off off' : Nat} {m : Memory} (h : wfFrom low m = true) :
    read (erase m off) off' = if off' = off then Config.unlistedByte else read m off' := by
  induction m generalizing low with
  | nil => simp [erase, read]
  | cons c m ih =>
    obtain ⟨k, v⟩ := c
    rw [wfFrom_cons] at h
    by_cases hk : k = off
    · subst hk
      rw [erase, if_pos rfl]
      by_cases ho : off' = k
      · rw [if_pos ho, ho, read_below h.2.2.2 (by omega)]
      · rw [if_neg ho, read, if_neg (Ne.symm ho)]
    · rw [erase, if_neg hk, read, read, ih h.2.2.2]
      by_cases ho : off' = off
      · rw [if_pos ho, if_pos ho, if_neg (by omega)]
      · rw [if_neg ho, if_neg ho]

theorem read_insert (m : Memory) (off off' : Nat) (v : Byte) :
    read (insert m off v) off' = if off' = off then v else read m off' := by
  induction m with
  | nil => simp [insert, read, eq_comm]
  | cons c m ih =>
    obtain ⟨k, w⟩ := c
    simp only [insert]
    split
    · simp [read, eq_comm]
    · split
      · simp only [read]
        by_cases ho : off' = off
        · rw [if_pos ho.symm, if_pos ho]
        · rw [if_neg (Ne.symm ho), if_neg ho, if_neg (by omega)]
      · simp only [read, ih]
        by_cases ho : off' = off
        · subst ho; rw [if_neg (by omega)]; simp
        · simp [ho]

/-- A read after a write to the same offset gives the value written, and a write leaves every other offset alone. -/
theorem read_write {m : Memory} (h : m.wf = true) (off off' : Nat) (v : Byte) :
    (m.write off v).read off' = if off' = off then v else m.read off' := by
  unfold write
  split
  · rename_i hv
    rw [read_erase h, hv]
  · exact read_insert m off off' v

theorem erase_wfFrom {low off : Nat} {m : Memory} (h : wfFrom low m = true) : wfFrom low (erase m off) = true := by
  induction m generalizing low with
  | nil => rfl
  | cons c m ih =>
    obtain ⟨k, v⟩ := c
    have hc := wfFrom_cons.1 h
    simp only [erase]
    split
    · exact wfFrom_mono hc.2.2.2 (by omega)
    · exact wfFrom_cons.2 ⟨hc.1, hc.2.1, hc.2.2.1, ih hc.2.2.2⟩

theorem insert_wfFrom {low off : Nat} {m : Memory} {v : Byte} (h : wfFrom low m = true) (hl : low ≤ off)
    (ho : off < Config.bootSize) (hv : v ≠ Config.unlistedByte) : wfFrom low (insert m off v) = true := by
  induction m generalizing low with
  | nil => exact wfFrom_cons.2 ⟨hl, ho, hv, rfl⟩
  | cons c m ih =>
    obtain ⟨k, w⟩ := c
    have hc := wfFrom_cons.1 h
    simp only [insert]
    split
    · exact wfFrom_cons.2 ⟨hl, ho, hv, wfFrom_cons.2 ⟨by omega, hc.2⟩⟩
    · split
      · exact wfFrom_cons.2 ⟨hl, ho, hv, wfFrom_mono hc.2.2.2 (by omega)⟩
      · exact wfFrom_cons.2 ⟨hc.1, hc.2.1, hc.2.2.1, ih hc.2.2.2 (by omega)⟩

/-- A write inside the store keeps the canonical form. -/
theorem write_wf {m : Memory} (h : m.wf = true) {off : Nat} (ho : off < Config.bootSize) (v : Byte) :
    (m.write off v).wf = true := by
  unfold write
  split
  · exact erase_wfFrom h
  · exact insert_wfFrom h (Nat.zero_le _) ho ‹_›

theorem writeBytes_wf {m : Memory} (h : m.wf = true) {off : Nat} {bytes : List Byte}
    (ho : off + bytes.length ≤ Config.bootSize) : (m.writeBytes off bytes).wf = true := by
  induction bytes generalizing m off with
  | nil => exact h
  | cons v bytes ih =>
    simp only [List.length_cons] at ho
    exact ih (write_wf h (by omega) v) (by omega)

theorem read_writeBytes {m : Memory} (h : m.wf = true) {off : Nat} {bytes : List Byte} (off' : Nat)
    (ho : off + bytes.length ≤ Config.bootSize) :
    (m.writeBytes off bytes).read off' =
      if off ≤ off' ∧ off' < off + bytes.length then bytes.getD (off' - off) 0 else m.read off' := by
  induction bytes generalizing m off with
  | nil => simp only [writeBytes, List.length_nil]; rw [if_neg (by omega)]
  | cons v bytes ih =>
    simp only [List.length_cons] at ho ⊢
    rw [writeBytes, ih (write_wf h (by omega) v) (by omega), read_write h]
    rcases Nat.lt_trichotomy off' off with hlt | heq | hlt
    · rw [if_neg (by omega), if_neg (by omega), if_neg (by omega)]
    · subst heq; rw [if_neg (by omega), if_pos rfl, if_pos (by omega)]; simp
    · by_cases hin : off' < off + 1 + bytes.length
      · rw [if_pos (by omega), if_pos (by omega)]
        obtain ⟨n, rfl⟩ : ∃ n, off' = off + 1 + n := ⟨off' - (off + 1), by omega⟩
        rw [show off + 1 + n - (off + 1) = n by omega, show off + 1 + n - off = n + 1 by omega]
        simp
      · rw [if_neg (by omega), if_neg (by omega), if_neg (by omega)]

theorem ofBytes_wfFrom {off : Nat} {bytes : List Byte} (h : off + bytes.length ≤ Config.bootSize) :
    wfFrom off (ofBytes off bytes) = true := by
  induction bytes generalizing off with
  | nil => rfl
  | cons v bytes ih =>
    simp only [List.length_cons] at h
    have := ih (off := off + 1) (by omega)
    simp only [ofBytes]
    split
    · exact wfFrom_mono this (by omega)
    · exact wfFrom_cons.2 ⟨le_refl _, by omega, ‹_›, this⟩

/-- The store of an image that fits is in canonical form. -/
theorem ofImage_wf {image : List Byte} (h : image.length ≤ Config.bootSize) : (ofImage image).wf = true :=
  ofBytes_wfFrom (by omega)

theorem read_ofBytes {off : Nat} {bytes : List Byte} (h : off + bytes.length ≤ Config.bootSize) (n : Nat) :
    read (ofBytes off bytes) (off + n) = bytes.getD n Config.unlistedByte := by
  induction bytes generalizing off n with
  | nil => rfl
  | cons v bytes ih =>
    simp only [List.length_cons] at h
    have hw := ofBytes_wfFrom (off := off + 1) (bytes := bytes) (by omega)
    have ihs := fun n => ih (off := off + 1) (by omega) n
    cases n with
    | zero =>
      simp only [ofBytes]
      split
      · rename_i hv
        rw [read_below hw (by omega)]; simp [hv]
      · simp [read]
    | succ n =>
      have hread := ihs n
      rw [show off + 1 + n = off + (n + 1) by omega] at hread
      simp only [ofBytes]
      split
      · rw [hread]; simp
      · rw [read, if_neg (by omega), hread]; simp

/-- `boot[i] = image[i]` (`70_reset_and_hazards.md` R95). -/
theorem read_ofImage {image : List Byte} (h : image.length ≤ Config.bootSize) (n : Nat) :
    (ofImage image).read n = image.getD n Config.unlistedByte := by
  have := read_ofBytes (off := 0) (bytes := image) (by omega) n
  simpa [ofImage] using this

@[simp] theorem reset_store_wf : State.reset.boot.wf = true := rfl

end Sys2Proof.Machine.Memory
end

