-- ==== Sys2Proof/Laws/State.lean ====
section
/-! SUPPORT. One lemma per field per update of the state, and reading a register after a write
(`10_state.md` R9 to R17). -/

namespace Sys2Proof.Machine

section advance
variable (s : State)
@[simp] theorem advancePc_a : (advancePc s).a = s.a := rfl
@[simp] theorem advancePc_b : (advancePc s).b = s.b := rfl
@[simp] theorem advancePc_c : (advancePc s).c = s.c := rfl
@[simp] theorem advancePc_d : (advancePc s).d = s.d := rfl
@[simp] theorem advancePc_e : (advancePc s).e = s.e := rfl
@[simp] theorem advancePc_f : (advancePc s).f = s.f := rfl
@[simp] theorem advancePc_h : (advancePc s).h = s.h := rfl
@[simp] theorem advancePc_l : (advancePc s).l = s.l := rfl
@[simp] theorem advancePc_sp : (advancePc s).sp = s.sp := rfl
@[simp] theorem advancePc_pc : (advancePc s).pc = s.pc + 1 := rfl
@[simp] theorem advancePc_bm : (advancePc s).bm = s.bm := rfl
@[simp] theorem advancePc_boot : (advancePc s).boot = s.boot := rfl
@[simp] theorem advancePc_fault : (advancePc s).fault = s.fault := rfl
end advance

section write8
variable (s : State) (r : Reg8) (v : Byte)
@[simp] theorem write8_sp : (s.write8 r v).sp = s.sp := by cases r <;> rfl
@[simp] theorem write8_pc : (s.write8 r v).pc = s.pc := by cases r <;> rfl
@[simp] theorem write8_bm : (s.write8 r v).bm = s.bm := by cases r <;> rfl
@[simp] theorem write8_boot : (s.write8 r v).boot = s.boot := by cases r <;> rfl
@[simp] theorem write8_fault : (s.write8 r v).fault = s.fault := by cases r <;> rfl

/-- The byte a register keeps of a value written to it (R11, R12). -/
theorem read8_write8 (r' : Reg8) :
    (s.write8 r v).read8 r' = if r' = r then (if r = .f then v &&& 0xF0 else v) else s.read8 r' := by
  cases r <;> cases r' <;> rfl

@[simp] theorem read8_write8_same (hr : r ≠ .f) : (s.write8 r v).read8 r = v := by
  simp [read8_write8, hr]

@[simp] theorem read8_write8_f : (s.write8 .f v).read8 .f = v &&& 0xF0 := rfl

@[simp] theorem read8_write8_other {r' : Reg8} (hr : r' ≠ r) : (s.write8 r v).read8 r' = s.read8 r' := by
  simp [read8_write8, hr]
end write8

section write16
variable (s : State) (p : Reg16) (v : Word)
@[simp] theorem write16_pc : (s.write16 p v).pc = s.pc := by cases p <;> rfl
@[simp] theorem write16_bm : (s.write16 p v).bm = s.bm := by cases p <;> rfl
@[simp] theorem write16_boot : (s.write16 p v).boot = s.boot := by cases p <;> rfl
@[simp] theorem write16_fault : (s.write16 p v).fault = s.fault := by cases p <;> rfl
@[simp] theorem write16_sp : s.write16 .sp v = { s with sp := v } := rfl
theorem write16_hl : s.write16 .hl v = { s with h := hiByte v, l := loByte v } := rfl
end write16

/-- `set_flags` as a record update (`42_logic.md` R74). -/
theorem setFlags_eq (s : State) (r : Byte) : s.setFlags r = { s with f := if r = 0 then 0x80 else 0x00 } := by
  have hf : ∀ r : Byte, flagsOf r &&& 0xF0 = flagsOf r := by decide
  change { s with f := flagsOf r &&& 0xF0 } = _
  rw [hf]; rfl

/-- F's low nibble is zero after any write to F (R12). -/
theorem write8_lowNibble (s : State) (r : Reg8) (v : Byte) (h : s.f &&& 0x0F = 0) :
    (s.write8 r v).f &&& 0x0F = 0 := by
  cases r <;> try exact h
  have hv : ∀ v : Byte, (v &&& 0xF0) &&& 0x0F = 0 := by decide
  exact hv v

theorem write16_lowNibble (s : State) (p : Reg16) (v : Word) (h : s.f &&& 0x0F = 0) :
    (s.write16 p v).f &&& 0x0F = 0 := by
  cases p
  · exact write8_lowNibble _ .f _ (write8_lowNibble _ .a _ h)
  · exact h
  · exact h
  · exact h
  · exact h

end Sys2Proof.Machine
end

