-- ==== Sys2Proof/Laws/Ops.lean ====
section
/-! SUPPORT. What each shared operation can do, said once: the guard, raising, the classifier, the Bus and Fetch. -/

namespace Sys2Proof.Machine

/-! ### Transitions -/

@[simp] theorem andThen_ok {α β : Type} (v : α) (s : State) (k : α → State → Reply β) :
    (Reply.mk (.ok v) s).andThen k = k v s := rfl

@[simp] theorem andThen_err {α β : Type} (e : Error) (s : State) (k : α → State → Reply β) :
    (Reply.mk (.err e) s).andThen k = ⟨.err e, s⟩ := rfl

@[simp] theorem andThen_refused {α β : Type} (q : Refusal) (s : State) (k : α → State → Reply β) :
    (Reply.mk (.refused q) s).andThen k = ⟨.refused q, s⟩ := rfl

@[simp] theorem raise_answer {α : Type} (e : Error) (s : State) : (raise e s : Reply α).answer = .err e := rfl
@[simp] theorem raise_state {α : Type} (e : Error) (s : State) :
    (raise e s : Reply α).state = { s with fault := some e } := rfl

@[simp] theorem guarded_latched {α : Type} (k : State → Reply α) {s : State} {e : Error} (h : s.fault = some e) :
    guarded k s = ⟨.err e, s⟩ := by simp [guarded, h]

@[simp] theorem guarded_running {α : Type} (k : State → Reply α) {s : State} (h : s.fault = none) :
    guarded k s = k s := by simp [guarded, h]

/-! ### The classifier -/

/-- In the boot window a mapped block reads Bootstrap (`20_memory.md` R29). -/
theorem classify_window {a : Word} (h : a.toNat ≤ 0x00FF) : classify a true = .ok (.bootstrap a) := by
  have h1 : a ≤ 0x3FFF := by rw [BitVec.le_def]; simp; omega
  have h2 : a ≤ 0x00FF := by rw [BitVec.le_def]; simpa using h
  rw [classify, if_pos h1, if_pos rfl, if_pos h2]

theorem classify_past_window {a : Word} (h : 0x0100 ≤ a.toNat) (h' : a.toNat ≤ 0x3FFF) :
    classify a true = .err (.invalidBootstrapAccess a) := by
  have h1 : a ≤ 0x3FFF := by rw [BitVec.le_def]; simpa using h'
  have h2 : ¬ a ≤ 0x00FF := by rw [BitVec.le_def]; simp; omega
  rw [classify, if_pos h1, if_pos rfl, if_neg h2]

theorem classify_bank_zero {a : Word} (h : a.toNat ≤ 0x3FFF) : classify a false = .ok (.cartridgeBankZero a) := by
  have h1 : a ≤ 0x3FFF := by rw [BitVec.le_def]; simpa using h
  rw [classify, if_pos h1, if_neg (by simp)]

/-- From 0x4000 on the map does not depend on `bm`, and no address there is Bootstrap or bank zero. -/
theorem classify_above {a : Word} (h : 0x4000 ≤ a.toNat) (bm : Bool) :
    ∃ r, classify a bm = .ok r ∧ (∀ off, r ≠ .bootstrap off) ∧ (∀ off, r ≠ .cartridgeBankZero off) := by
  have h1 : ¬ a ≤ 0x3FFF := by rw [BitVec.le_def]; simp; omega
  simp only [classify, h1, if_false]
  repeat' split
  all_goals exact ⟨_, rfl, by simp, by simp⟩

/-! ### The Bus -/

/-- Every answer of a Bus read (`20_memory.md` R29, R35, R36). -/
theorem memRead_cases (a : Word) (s : State) :
    (s.bm = true ∧ a.toNat ≤ 0x00FF ∧ memRead a s = .ok (s.boot.read a.toNat)) ∨
    (s.bm = true ∧ 0x0100 ≤ a.toNat ∧ a.toNat ≤ 0x3FFF ∧ memRead a s = .err (.invalidBootstrapAccess a)) ∨
    (s.bm = false ∧ a.toNat ≤ 0x3FFF ∧ memRead a s = .err (.unimplementedRegion (.cartridgeBankZero a))) ∨
    (0x4000 ≤ a.toNat ∧ ∃ r, classify a s.bm = .ok r ∧ memRead a s = .err (.unimplementedRegion r)) := by
  by_cases hhi : 0x4000 ≤ a.toNat
  · obtain ⟨r, hr, hb, -⟩ := classify_above hhi s.bm
    refine .inr (.inr (.inr ⟨hhi, r, hr, ?_⟩))
    unfold memRead
    rw [hr]
    cases r <;> first | rfl | exact absurd rfl (hb _)
  · cases hbm : s.bm with
    | false =>
      refine .inr (.inr (.inl ⟨rfl, by omega, ?_⟩))
      simp [memRead, hbm, classify_bank_zero (show a.toNat ≤ 0x3FFF by omega)]
    | true =>
      by_cases hlo : a.toNat ≤ 0x00FF
      · exact .inl ⟨rfl, hlo, by simp [memRead, hbm, classify_window hlo]⟩
      · refine .inr (.inl ⟨rfl, by omega, by omega, ?_⟩)
        simp [memRead, hbm, classify_past_window (show 0x0100 ≤ a.toNat by omega) (by omega)]

/-- The classifier's whole outcome decides a Bus write (`20_memory.md` R37). -/
theorem memWrite_region {a : Word} {v : Byte} {s : State} {r : Region} (h : classify a s.bm = .ok r) :
    memWrite a v s = .err (if readOnlyRegions r then .readOnlyRegion r else .unimplementedRegion r) := by
  unfold memWrite
  rw [h]
  dsimp only
  split <;> rfl

theorem memRead_ok_iff {a : Word} {s : State} {byte : Byte} :
    memRead a s = .ok byte ↔ s.bm = true ∧ a.toNat ≤ 0x00FF ∧ byte = s.boot.read a.toNat := by
  rcases memRead_cases a s with ⟨hb, hl, h⟩ | ⟨hb, hl, -, h⟩ | ⟨hb, -, h⟩ | ⟨hl, r, -, h⟩ <;> rw [h]
  · simp [hb, hl, eq_comm]
  · simp; omega
  · simp [hb]
  · simp; omega

/-- A Bus read depends on the boot-mapped bit and the store alone. -/
theorem memRead_congr {s t : State} (hbm : s.bm = t.bm) (hb : s.boot = t.boot) (a : Word) :
    memRead a s = memRead a t := by simp [memRead, hbm, hb]

/-- A Bus read answers a byte or an error, never a refusal. -/
theorem memRead_ok_or_err (a : Word) (s : State) :
    (∃ byte, memRead a s = .ok byte) ∨ ∃ e, memRead a s = .err e := by
  rcases memRead_cases a s with ⟨-, -, h⟩ | ⟨-, -, -, h⟩ | ⟨-, -, h⟩ | ⟨-, r, -, h⟩
  · exact .inl ⟨_, h⟩
  · exact .inr ⟨_, h⟩
  · exact .inr ⟨_, h⟩
  · exact .inr ⟨_, h⟩

/-! ### The store's own reads -/

@[simp] theorem raising_ok {α : Type} (v : α) (s : State) : raising (.ok v) s = ⟨.ok v, s⟩ := rfl
@[simp] theorem raising_err {α : Type} (e : Error) (s : State) :
    raising (.err e : Answer α) s = ⟨.err e, { s with fault := some e }⟩ := rfl
@[simp] theorem raising_refused {α : Type} (q : Refusal) (s : State) :
    raising (.refused q : Answer α) s = ⟨.refused q, s⟩ := rfl

/-- Everything the store's `read8` can do (`20_memory.md` R39, R41; the latch is log 11). -/
theorem bootRead8_cases (off : Byte) (s : State) :
    (∃ e, s.fault = some e ∧ bootRead8 off s = ⟨.err e, s⟩) ∨
    (s.fault = none ∧ s.bm = true ∧ bootRead8 off s = ⟨.ok (s.boot.read off.toNat), s⟩) ∨
    (s.fault = none ∧ s.bm = false ∧ bootRead8 off s = ⟨.err .notMapped, { s with fault := some .notMapped }⟩) := by
  cases hf : s.fault with
  | some e => exact .inl ⟨e, rfl, guarded_latched _ hf⟩
  | none =>
    rw [bootRead8, guarded_running _ hf, storeByte]
    cases hb : s.bm
    · exact .inr (.inr ⟨rfl, rfl, by rw [if_neg (by simp), raising_err, hb]⟩)
    · exact .inr (.inl ⟨rfl, rfl, by rw [if_pos rfl, raising_ok]⟩)

/-- Everything the store's `read16` can do (`20_memory.md` R40, R41; the refusal is log 9, the latch log 11). -/
theorem bootRead16_cases (off : Byte) (s : State) :
    (∃ e, s.fault = some e ∧ bootRead16 off s = ⟨.err e, s⟩) ∨
    (s.fault = none ∧ s.bm = true ∧ off ≠ 0xFF ∧
      bootRead16 off s = ⟨.ok (littleEndian (s.boot.read off.toNat) (s.boot.read (off.toNat + 1))), s⟩) ∨
    (s.fault = none ∧ s.bm = true ∧ off = 0xFF ∧ bootRead16 off s = ⟨.refused .bootRead16AtEnd, s⟩) ∨
    (s.fault = none ∧ s.bm = false ∧ bootRead16 off s = ⟨.err .notMapped, { s with fault := some .notMapped }⟩) := by
  cases hf : s.fault with
  | some e => exact .inl ⟨e, rfl, guarded_latched _ hf⟩
  | none =>
    rw [bootRead16, guarded_running _ hf, storeWord]
    cases hb : s.bm
    · exact .inr (.inr (.inr ⟨rfl, rfl, by rw [if_neg (by simp), raising_err, hb]⟩))
    · by_cases ho : off = 0xFF
      · exact .inr (.inr (.inl ⟨rfl, rfl, ho, by rw [if_pos rfl, if_pos ho, raising_refused]⟩))
      · exact .inr (.inl ⟨rfl, rfl, ho, by rw [if_pos rfl, if_neg ho, raising_ok]⟩)

/-! ### Fetch -/

theorem fetch_ok {s : State} {byte : Byte} (hf : s.fault = none) (h : memRead s.pc s = .ok byte) :
    fetch s = ⟨.ok byte, advancePc s⟩ := by simp [fetch, hf, h, raising]

theorem fetch_err {s : State} {e : Error} (hf : s.fault = none) (h : memRead s.pc s = .err e) :
    fetch s = ⟨.err e, { s with fault := some e }⟩ := by simp [fetch, hf, h, raising, raise]

theorem fetch_latched {s : State} {e : Error} (h : s.fault = some e) : fetch s = ⟨.err e, s⟩ := by
  simp [fetch, h]

/-- Everything a Fetch can do (`40_engine.md` R62, R69). -/
theorem fetch_cases (s : State) :
    (∃ e, s.fault = some e ∧ fetch s = ⟨.err e, s⟩) ∨
    (∃ byte, s.fault = none ∧ memRead s.pc s = .ok byte ∧ fetch s = ⟨.ok byte, advancePc s⟩) ∨
    (∃ e, s.fault = none ∧ memRead s.pc s = .err e ∧ fetch s = ⟨.err e, { s with fault := some e }⟩) := by
  cases hf : s.fault with
  | some e => exact .inl ⟨e, rfl, fetch_latched hf⟩
  | none =>
    rcases memRead_ok_or_err s.pc s with ⟨b, hb⟩ | ⟨e, he⟩
    · exact .inr (.inl ⟨b, rfl, hb, fetch_ok hf hb⟩)
    · exact .inr (.inr ⟨e, rfl, he, fetch_err hf he⟩)

end Sys2Proof.Machine
end

