-- ==== Sys2Proof/Laws/Engine.lean ====
section
/-! SUPPORT. What Decode, a Step and each instruction can do, said once. -/

namespace Sys2Proof.Machine

/-! ### The fetched bytes -/

theorem readableBytes_succ_ok {n : Nat} {a : Word} {s : State} {byte : Byte} (h : memRead a s = .ok byte) :
    readableBytes (n + 1) a s = byte :: readableBytes n (a + 1) s := by simp [readableBytes, h]

theorem readableBytes_succ_err {n : Nat} {a : Word} {s : State} {e : Error} (h : memRead a s = .err e) :
    readableBytes (n + 1) a s = [] := by simp [readableBytes, h]

theorem readableBytes_congr {s t : State} (hbm : s.bm = t.bm) (hb : s.boot = t.boot) (n : Nat) (a : Word) :
    readableBytes n a s = readableBytes n a t := by
  induction n generalizing a with
  | zero => rfl
  | succ n ih => simp only [readableBytes, memRead_congr hbm hb, ih]

/-- If all `n` bytes from `a` on are there, each of them can be read. -/
theorem readableBytes_all {n : Nat} {a : Word} {s : State} (h : (readableBytes n a s).length = n) :
    ∀ k < n, ∃ v, memRead (a + BitVec.ofNat 16 k) s = .ok v := by
  induction n generalizing a with
  | zero => omega
  | succ n ih =>
    rcases memRead_ok_or_err a s with ⟨b, hb⟩ | ⟨e, he⟩
    · rw [readableBytes_succ_ok hb] at h
      intro k hk
      cases k with
      | zero => exact ⟨b, by simpa using hb⟩
      | succ k =>
        obtain ⟨v, hv⟩ := ih (by simpa using h) k (by omega)
        refine ⟨v, ?_⟩
        rw [← hv, BitVec.add_assoc, Nat.add_comm k 1, BitVec.ofNat_add]
    · rw [readableBytes_succ_err he] at h
      simp at h

/-! ### Decode -/

/-- Everything the fetching of a `d16` can do on a running block (`40_engine.md` R65). -/
theorem fetchImm16_cases {s : State} (hf : s.fault = none) :
    (∃ lo hi, memRead s.pc s = .ok lo ∧ memRead (s.pc + 1) s = .ok hi ∧
      fetchImm16 s = ⟨.ok (littleEndian lo hi), { s with pc := s.pc + 2 }⟩) ∨
    (∃ e, memRead s.pc s = .err e ∧ fetchImm16 s = ⟨.err e, { s with fault := some e }⟩) ∨
    (∃ lo e, memRead s.pc s = .ok lo ∧ memRead (s.pc + 1) s = .err e ∧
      fetchImm16 s = ⟨.err e, { s with pc := s.pc + 1, fault := some e }⟩) := by
  have hadd : s.pc + 1 + 1 = s.pc + 2 := by rw [BitVec.add_assoc]; rfl
  rcases memRead_ok_or_err s.pc s with ⟨lo, hlo⟩ | ⟨e, he⟩
  · have hfa : (advancePc s).fault = none := hf
    have hc : memRead (s.pc + 1) (advancePc s) = memRead (s.pc + 1) s := memRead_congr rfl rfl _
    rcases memRead_ok_or_err (s.pc + 1) s with ⟨hi, hhi⟩ | ⟨e, he⟩
    · refine .inl ⟨lo, hi, hlo, hhi, ?_⟩
      simp only [fetchImm16, fetch_ok hf hlo, andThen_ok, fetch_ok hfa (hc.trans hhi)]
      simp only [advancePc, hadd]
    · refine .inr (.inr ⟨lo, e, hlo, he, ?_⟩)
      simp only [fetchImm16, fetch_ok hf hlo, andThen_ok, fetch_err hfa (hc.trans he), andThen_err]
      rfl
  · exact .inr (.inl ⟨e, he, by simp only [fetchImm16, fetch_err hf he, andThen_err]⟩)

theorem decodeAt_latched {byte : Byte} {origin : Word} {s : State} {e : Error} (h : s.fault = some e) :
    decodeAt byte origin s = ⟨.err e, s⟩ := by simp [decodeAt, h]

theorem decodeAt_unimplemented {byte : Byte} {origin : Word} {s : State} (hf : s.fault = none)
    (h : opcodeOfByte byte = none) :
    decodeAt byte origin s =
      ⟨.err (.unimplementedOpcode byte origin), { s with fault := some (.unimplementedOpcode byte origin) }⟩ := by
  simp [decodeAt, hf, h, raise]

theorem decodeAt_xorA {byte : Byte} {origin : Word} {s : State} (hf : s.fault = none)
    (h : opcodeOfByte byte = some .xorA) :
    decodeAt byte origin s = ⟨.ok (mkInstruction origin .xorA), s⟩ := by simp [decodeAt, hf, h]

theorem decodeAt_ldSpD16 {byte : Byte} {origin : Word} {s : State} (hf : s.fault = none)
    (h : opcodeOfByte byte = some .ldSpD16) :
    decodeAt byte origin s =
      (fetchImm16 s).andThen fun v t => ⟨.ok (mkInstruction origin (.ldSpD16 v)), t⟩ := by simp [decodeAt, hf, h]

theorem decodeAt_ldHlD16 {byte : Byte} {origin : Word} {s : State} (hf : s.fault = none)
    (h : opcodeOfByte byte = some .ldHlD16) :
    decodeAt byte origin s =
      (fetchImm16 s).andThen fun v t => ⟨.ok (mkInstruction origin (.ldHlD16 v)), t⟩ := by simp [decodeAt, hf, h]

/-- Everything Decode can do on a running block: the bytes an instruction needs were read and PC stands past them, or
an error was raised after `n` operand Fetches. -/
theorem decodeAt_cases {s : State} (byte : Byte) (origin : Word) (hf : s.fault = none) :
    (∃ i n, opcodeOfByte byte = some (opcodeOf i) ∧ lengthOf (opcodeOf i) = n + 1 ∧
      readableBytes n s.pc s = encodeOperands i ∧
      decodeAt byte origin s = ⟨.ok (mkInstruction origin i), { s with pc := s.pc + BitVec.ofNat 16 n }⟩) ∨
    (∃ n e, n ≤ 1 ∧ (∀ k < n, ∃ v, memRead (s.pc + BitVec.ofNat 16 k) s = .ok v) ∧
      ((∃ o, opcodeOfByte byte = some o ∧ formatOf o = .opD16 ∧ memRead (s.pc + BitVec.ofNat 16 n) s = .err e) ∨
        (n = 0 ∧ opcodeOfByte byte = none ∧ e = .unimplementedOpcode byte origin)) ∧
      decodeAt byte origin s = ⟨.err e, { s with pc := s.pc + BitVec.ofNat 16 n, fault := some e }⟩) := by
  cases ho : opcodeOfByte byte with
  | none =>
    refine .inr ⟨0, _, by omega, by omega, .inr ⟨rfl, rfl, rfl⟩, ?_⟩
    simp [decodeAt_unimplemented hf ho]
  | some o =>
    cases o with
    | xorA =>
      refine .inl ⟨.xorA, 0, rfl, rfl, rfl, ?_⟩
      simp [decodeAt_xorA hf ho]
    | ldSpD16 =>
      rw [decodeAt_ldSpD16 hf ho]
      rcases fetchImm16_cases hf with ⟨lo, hi, hl, hh, h⟩ | ⟨e, he, h⟩ | ⟨lo, e, hl, he, h⟩ <;>
        rw [h]
      · refine .inl ⟨.ldSpD16 (littleEndian lo hi), 2, rfl, rfl, ?_, rfl⟩
        rw [readableBytes_succ_ok hl, readableBytes_succ_ok hh]
        simp [readableBytes, encodeOperands, imm16Of, littleEndian]
      · exact .inr ⟨0, e, by omega, by omega, .inl ⟨_, rfl, rfl, by simpa using he⟩, by simp⟩
      · refine .inr ⟨1, e, by omega, fun k hk => ⟨lo, ?_⟩, .inl ⟨_, rfl, rfl, he⟩, rfl⟩
        obtain rfl : k = 0 := by omega
        simpa using hl
    | ldHlD16 =>
      rw [decodeAt_ldHlD16 hf ho]
      rcases fetchImm16_cases hf with ⟨lo, hi, hl, hh, h⟩ | ⟨e, he, h⟩ | ⟨lo, e, hl, he, h⟩ <;>
        rw [h]
      · refine .inl ⟨.ldHlD16 (littleEndian lo hi), 2, rfl, rfl, ?_, rfl⟩
        rw [readableBytes_succ_ok hl, readableBytes_succ_ok hh]
        simp [readableBytes, encodeOperands, imm16Of, littleEndian]
      · exact .inr ⟨0, e, by omega, by omega, .inl ⟨_, rfl, rfl, by simpa using he⟩, by simp⟩
      · refine .inr ⟨1, e, by omega, fun k hk => ⟨lo, ?_⟩, .inl ⟨_, rfl, rfl, he⟩, rfl⟩
        obtain rfl : k = 0 := by omega
        simpa using hl

/-! ### Before Execute -/

/-- The error a Step met and the number of Fetches that succeeded before it (`60_exceptions.md` R84, R87). -/
def StopsBeforeExecute (s : State) (n : Nat) (e : Error) : Prop :=
  n ≤ 2 ∧ (∀ k < n, ∃ v, memRead (s.pc + BitVec.ofNat 16 k) s = .ok v) ∧
    ((memRead (s.pc + BitVec.ofNat 16 n) s = .err e ∧
        (n = 0 ∨ ∃ byte o, memRead s.pc s = .ok byte ∧ opcodeOfByte byte = some o ∧ formatOf o = .opD16)) ∨
      (n = 1 ∧ ∃ byte, memRead s.pc s = .ok byte ∧ opcodeOfByte byte = none ∧
        e = .unimplementedOpcode byte s.pc))

/-- Everything a running block can do before Execute: decode the instruction whose bytes stand at PC, or raise. -/
theorem fetchDecode_cases {s : State} (hf : s.fault = none) :
    (∃ i, readableBytes (lengthOf (opcodeOf i)) s.pc s = encode i ∧
      fetchDecode s =
        ⟨.ok (mkInstruction s.pc i), { s with pc := s.pc + BitVec.ofNat 16 (lengthOf (opcodeOf i)) }⟩) ∨
    (∃ n e, StopsBeforeExecute s n e ∧
      fetchDecode s = ⟨.err e, { s with pc := s.pc + BitVec.ofNat 16 n, fault := some e }⟩) := by
  rcases memRead_ok_or_err s.pc s with ⟨byte, hb⟩ | ⟨e, he⟩
  · have hfa : (advancePc s).fault = none := hf
    have hfd : fetchDecode s = decodeAt byte s.pc (advancePc s) := by
      simp only [fetchDecode, fetch_ok hf hb, andThen_ok]
    have hadd : ∀ n, s.pc + 1 + BitVec.ofNat 16 n = s.pc + BitVec.ofNat 16 (n + 1) := by
      intro n
      rw [BitVec.add_assoc, Nat.add_comm, BitVec.ofNat_add]; rfl
    rcases decodeAt_cases byte s.pc hfa with ⟨i, n, ho, hl, hr, h⟩ | ⟨n, e, hn, hk, hwhy, h⟩
    · refine .inl ⟨i, ?_, ?_⟩
      · rw [hl, readableBytes_succ_ok hb, encode, ← opcodeByte_of_opcodeOfByte ho, ← hr]
        congr 1
        exact (readableBytes_congr (s := s) (t := advancePc s) rfl rfl n _)
      · rw [hfd, h, hl]
        simp only [advancePc, hadd]
    · refine .inr ⟨n + 1, e, ⟨by omega, ?_, ?_⟩, ?_⟩
      · intro k hkn
        cases k with
        | zero => exact ⟨byte, by simpa using hb⟩
        | succ k =>
          obtain ⟨v, hv⟩ := hk k (by omega)
          exact ⟨v, by rw [← hadd]; exact hv⟩
      · rcases hwhy with ⟨o, ho, hfmt, he⟩ | ⟨rfl, ho, rfl⟩
        · exact .inl ⟨by rw [← hadd]; exact he, .inr ⟨byte, o, hb, ho, hfmt⟩⟩
        · exact .inr ⟨rfl, byte, hb, ho, rfl⟩
      · rw [hfd, h]
        simp only [advancePc, hadd]
  · refine .inr ⟨0, e, ⟨by omega, by omega, .inl ⟨by simpa using he, .inl rfl⟩⟩, ?_⟩
    simp [fetchDecode, fetch_err hf he]

theorem fetchDecode_latched {s : State} {e : Error} (h : s.fault = some e) : fetchDecode s = ⟨.err e, s⟩ := by
  simp [fetchDecode, fetch_latched h]

/-! ### Execute and Step -/

/-- The state after an instruction's effect. -/
def effect (i : Instr) (s : State) : State :=
  match i with
  | .ldSpD16 v => { s with sp := v }
  | .xorA => { s with a := 0, f := 0x80 }
  | .ldHlD16 v => { s with h := hiByte v, l := loByte v }

theorem exec_running (i : Instr) {s : State} (hf : s.fault = none) : exec i s = .next (effect i s) := by
  cases i with
  | ldSpD16 v => simp [exec, execLdSpD16, completes, hf, effect]
  | xorA => simp [exec, execXorA, completes, hf, effect, setFlags_eq, State.read8, State.write8]
  | ldHlD16 v => simp [exec, execLdHlD16, completes, hf, effect, write16_hl]

theorem exec_latched (i : Instr) {s : State} {e : Error} (h : s.fault = some e) :
    exec i s = .fault (.latched e) := by
  cases i <;> simp [exec, execLdSpD16, execXorA, execLdHlD16, completes, h]

section effect
variable (i : Instr) (s : State)
@[simp] theorem effect_pc : (effect i s).pc = s.pc := by cases i <;> rfl
@[simp] theorem effect_bm : (effect i s).bm = s.bm := by cases i <;> rfl
@[simp] theorem effect_boot : (effect i s).boot = s.boot := by cases i <;> rfl
@[simp] theorem effect_fault : (effect i s).fault = s.fault := by cases i <;> rfl
theorem effect_lowNibble (h : s.f &&& 0x0F = 0) : (effect i s).f &&& 0x0F = 0 := by
  cases i
  · exact h
  · simp [effect]
  · exact h
end effect

theorem execute_running (i : Instruction) {s : State} (hf : s.fault = none) :
    execute i s = ⟨.ok (), effect i.op s⟩ := by simp [execute, exec_running i.op hf]

theorem execute_latched (i : Instruction) {s : State} {e : Error} (h : s.fault = some e) :
    execute i s = ⟨.err e, s⟩ := by simp [execute, exec_latched i.op h]

theorem step_latched {s : State} {e : Error} (h : s.fault = some e) : step s = .fault (.latched e) := by
  simp [step, runCycle, h]

theorem stepReply_latched {s : State} {e : Error} (h : s.fault = some e) : stepReply s = ⟨.err e, s⟩ := by
  simp [stepReply, h]

theorem runCycle_ok {ex : Instr → State → Host.Outcome State Fault Refusal} {s t : State} {i : Instruction}
    (hf : s.fault = none) (h : fetchDecode s = ⟨.ok i, t⟩) : runCycle ex s = ex i.op t := by
  unfold runCycle
  rw [hf]
  dsimp only
  rw [h]

theorem runCycle_err {ex : Instr → State → Host.Outcome State Fault Refusal} {s t : State} {e : Error}
    (hf : s.fault = none) (h : fetchDecode s = ⟨.err e, t⟩) : runCycle ex s = .next t := by
  unfold runCycle
  rw [hf]
  dsimp only
  rw [h]

/-- Everything a Step can do on a running block: complete the instruction at PC, or raise before Execute. -/
theorem step_cases {s : State} (hf : s.fault = none) :
    (∃ i, readableBytes (lengthOf (opcodeOf i)) s.pc s = encode i ∧
      stepReply s = ⟨.ok (mkInstruction s.pc i),
        effect i { s with pc := s.pc + BitVec.ofNat 16 (lengthOf (opcodeOf i)) }⟩ ∧
      step s = .next (effect i { s with pc := s.pc + BitVec.ofNat 16 (lengthOf (opcodeOf i)) })) ∨
    (∃ n e, StopsBeforeExecute s n e ∧
      stepReply s = ⟨.err e, { s with pc := s.pc + BitVec.ofNat 16 n, fault := some e }⟩ ∧
      step s = .next { s with pc := s.pc + BitVec.ofNat 16 n, fault := some e }) := by
  rcases fetchDecode_cases hf with ⟨i, hr, h⟩ | ⟨n, e, hs, h⟩
  · refine .inl ⟨i, hr, ?_, ?_⟩
    · rw [stepReply, guarded_running _ hf, h, andThen_ok, execute_running, andThen_ok, mkInstruction_op]
      exact hf
    · exact (runCycle_ok hf h).trans (exec_running i hf)
  · exact .inr ⟨n, e, hs, by rw [stepReply, guarded_running _ hf, h, andThen_err], runCycle_err hf h⟩

end Sys2Proof.Machine
end

