-- ==== Sys2Proof/Laws/Interface.lean ====
section
/-! SUPPORT. The host's interactions: what each leaves of the state. -/

namespace Sys2Proof.Machine

@[simp] theorem respond_state {α : Type} (r : Reply α) (k : α → Response) : (r.respond k).state = r.state := by
  obtain ⟨v, s⟩ := r
  cases v <;> rfl

@[simp] theorem respond_ok {α : Type} (v : α) (s : State) (k : α → Response) :
    (Reply.mk (.ok v) s).respond k = ⟨.ok (k v), s⟩ := rfl

@[simp] theorem respond_err {α : Type} (e : Error) (s : State) (k : α → Response) :
    (Reply.mk (.err e : Answer α) s).respond k = ⟨.err e, s⟩ := rfl

/-- Two states that differ at most in PC and the latch, PC having advanced only over bytes that could be read. -/
def FetchedOn (s t : State) : Prop :=
  ∃ n latch, (∀ k < n, ∃ v, memRead (s.pc + BitVec.ofNat 16 k) s = .ok v) ∧
    t = { s with pc := s.pc + BitVec.ofNat 16 n, fault := latch }

theorem FetchedOn.refl (s : State) : FetchedOn s s := ⟨0, s.fault, by omega, by simp⟩

theorem fetch_fetchedOn (s : State) : FetchedOn s (fetch s).state := by
  rcases fetch_cases s with ⟨e, -, h⟩ | ⟨b, hf, hb, h⟩ | ⟨e, hf, -, h⟩ <;> rw [h]
  · exact .refl s
  · refine ⟨1, none, fun k hk => ⟨b, ?_⟩, by rw [← hf]; rfl⟩
    obtain rfl : k = 0 := by omega
    simpa using hb
  · exact ⟨0, some e, by omega, by simp⟩

theorem decodeAt_fetchedOn (byte : Byte) (origin : Word) (s : State) :
    FetchedOn s (decodeAt byte origin s).state := by
  cases hf : s.fault with
  | some e => rw [decodeAt_latched hf]; exact .refl s
  | none =>
    rcases decodeAt_cases byte origin hf with ⟨i, n, -, hl, hr, h⟩ | ⟨n, e, -, hk, -, h⟩ <;> rw [h]
    · refine ⟨n, none, ?_, by rw [← hf]⟩
      have hlen : (readableBytes n s.pc s).length = n := by
        rw [hr]
        cases i <;> simp [lengthOf, formatOf, rowOf, opcodeOf, operandBytes, encodeOperands, imm16Of] at hl ⊢ <;> omega
      exact readableBytes_all hlen
    · exact ⟨n, some e, hk, rfl⟩

end Sys2Proof.Machine
end

