-- ==== Sys2Proof/Laws/PerInstr.lean ====
section
/-! SUPPORT. What holds of every instruction as syntax, one lemma per constructor: the encoding's round trip, and its
length. -/

namespace Sys2Proof.Laws

/-- Decoding the bytes of `i`, whatever follows them, gives `i` and what follows (`30_encoding.md` R50 to R52). -/
def RoundTrip.Statement (i : Instr) : Prop := ∀ rest : List Byte, decode (encode i ++ rest) = .ok (i, rest)

theorem RoundTrip.ldSpD16 (imm16 : Word) : RoundTrip.Statement (.ldSpD16 imm16) := by
  intro rest
  simp [encode, encodeOperands, Machine.opcodeOf, Machine.imm16Of, decode, takeImm16]

theorem RoundTrip.xorA : RoundTrip.Statement .xorA := by
  intro rest
  simp [encode, encodeOperands, Machine.opcodeOf, Machine.imm16Of, decode]

theorem RoundTrip.ldHlD16 (imm16 : Word) : RoundTrip.Statement (.ldHlD16 imm16) := by
  intro rest
  simp [encode, encodeOperands, Machine.opcodeOf, Machine.imm16Of, decode, takeImm16]

/-- The encoding is as long as the opcode says (`30_encoding.md` R49). -/
def Framing.Statement (i : Instr) : Prop := (encode i).length = Machine.lengthOf (Machine.opcodeOf i)

theorem Framing.ldSpD16 (imm16 : Word) : Framing.Statement (.ldSpD16 imm16) := rfl

theorem Framing.xorA : Framing.Statement .xorA := rfl

theorem Framing.ldHlD16 (imm16 : Word) : Framing.Statement (.ldHlD16 imm16) := rfl

end Sys2Proof.Laws
end

