-- ==== Sys2Proof/Tests/Slice0.lean ====
section
/-! SUPPORT. The model's own tests: well-formedness, decoding from words written out from the spec's encodings, one
step of each instruction, the worked examples and vectors of `95_test_vectors.md`, and a witness for the hypotheses of
each obligation that has some. -/

namespace Sys2Proof.Tests

open Sys2Proof.Machine

/-- A mapped block with the given bytes from PC on, every other byte of the image 0x00. -/
def blockAt (pc : Word) (bytes : List Byte) : State :=
  { State.reset with pc := pc, boot := Memory.writeBytes [] pc.toNat bytes }

/-- The same, built unmapped. -/
def unmapped : State := { State.reset with bm := false }

/-- The next state of an outcome, where it has one. -/
def nextOf : Host.Outcome State Fault Refusal → Option State
  | .next s => some s
  | _ => none

/-- The fault of an outcome, where it has one. -/
def faultOf : Host.Outcome State Fault Refusal → Option Fault
  | .fault r => some r
  | _ => none

/-- The value of an answer, where it has one. -/
def okOf {α : Type} : Answer α → Option α
  | .ok v => some v
  | _ => none

/-! ### Well-formedness: one ill-formed record for each check -/

/-- W7 and W12: the record of `31 FE FF` at 0x0000. -/
def ldSpRecord : Instruction :=
  { origin := 0x0000, text := "LD SP, 0xfffe ;$0x0000", cycles := 12, length := 3, imm16 := some 0xFFFE,
    op := .ldSpD16 0xFFFE }

theorem test_wf_accepts_the_record_of_W7 : ldSpRecord.wf = true := by decide
theorem test_wf_refuses_another_immediate : { ldSpRecord with imm16 := some 0xFFFF }.wf = false := by decide
theorem test_wf_refuses_a_missing_immediate : { ldSpRecord with imm16 := none }.wf = false := by decide
theorem test_wf_refuses_another_length : { ldSpRecord with length := 2 }.wf = false := by decide
theorem test_wf_refuses_other_cycles : { ldSpRecord with cycles := 4 }.wf = false := by decide
theorem test_wf_refuses_another_text : { ldSpRecord with text := "LD SP, 0xFFFE ;$0x0000" }.wf = false := by decide

/-! ### Decoding, from the words of `30_encoding.md` R51 and R52 written bit by bit -/

theorem test_decode_ld_sp :
    decode [0b00110001#8, 0b11001101#8, 0b10101011#8, 0x99#8] = .ok (.ldSpD16 0xABCD, [0x99]) := rfl
theorem test_decode_xor_a : decode [0b10101111#8, 0b00110001#8] = .ok (.xorA, [0x31]) := rfl
theorem test_decode_ld_hl :
    decode [0b00100001#8, 0b00110100#8, 0b00010010#8] = .ok (.ldHlD16 0x1234, []) := rfl
theorem test_decode_rejects_by_name :
    decode [] = .error .noOpcode ∧ decode [0x31, 0x00] = .error (.truncated .ldSpD16) ∧
    decode [0xCB, 0x00] = .error (.unimplementedOpcode 0xCB) := ⟨rfl, rfl, rfl⟩
/-- The sweep of V-DE: exactly three of the 256 opcode bytes decode. -/
theorem test_decode_sweep :
    ((List.range 256).map (BitVec.ofNat 8)).filter (fun b => (opcodeOfByte b).isSome) = [0x21, 0x31, 0xAF] := by
  decide
/-- The rows of the opcode table as numbers, operands included. -/
theorem test_decodeTableWord :
    decodeTableWord 24 0xFFFE31 = some (.ldSpD16 0xFFFE) ∧ decodeTableWord 8 0xAF = some .xorA ∧
    decodeTableWord 24 0x123421 = some (.ldHlD16 0x1234) ∧ decodeTableWord 8 0x21 = some (.ldHlD16 0) ∧
    decodeTableWord 8 0x00 = none := by decide

/-! ### Disassembly: W12, W13 and V-DE -/

theorem test_text_ld_sp : disassembly (.ldSpD16 0xFFFE) 0x0000 = "LD SP, 0xfffe ;$0x0000" := by decide
theorem test_text_xor_a :
    disassembly .xorA 0x0000 = "XOR A ;$0x0000" ∧ disassembly .xorA 0x00FF = "XOR A ;$0x00ff" := by decide
theorem test_text_ld_hl : disassembly (.ldHlD16 0x0012) 0x0005 = "LD HL, 0x0012 ;$0x0005" := by decide

/-! ### One step of each instruction: V-LD, V-XOR -/

/-- `31 34 12`: SP = 0x1234; H and L unchanged. -/
theorem test_step_ld_sp :
    nextOf (step { blockAt 0x0000 [0x31, 0x34, 0x12] with h := 0x77, l := 0x88 }) =
      some { blockAt 0x0000 [0x31, 0x34, 0x12] with h := 0x77, l := 0x88, sp := 0x1234, pc := 0x0003 } := by decide

/-- `21 CD AB`: H = 0xAB, L = 0xCD; SP and F unchanged. -/
theorem test_step_ld_hl :
    nextOf (step { blockAt 0x0010 [0x21, 0xCD, 0xAB] with sp := 0x1234, f := 0x80 }) =
      some { blockAt 0x0010 [0x21, 0xCD, 0xAB] with sp := 0x1234, f := 0x80, h := 0xAB, l := 0xCD, pc := 0x0013 } := by
  decide

/-- `AF` with A = 0x5A and F = 0x30: A = 0x00 and F = 0x80. -/
theorem test_step_xor_a :
    nextOf (step { blockAt 0x0003 [0xAF] with a := 0x5A, f := 0x30 }) =
      some { blockAt 0x0003 [0xAF] with a := 0x00, f := 0x80, pc := 0x0004 } := by decide

/-- The Instruction that a Step of `21 34 12` at 0x0010 returns (V-DE). -/
theorem test_stepReply_record :
    okOf (stepReply (blockAt 0x0010 [0x21, 0x34, 0x12])).answer =
      some { origin := 0x0010, text := "LD HL, 0x1234 ;$0x0010", cycles := 12, length := 3, imm16 := some 0x1234,
             op := .ldHlD16 0x1234 } := by decide

/-- The first step after reset runs the placed word. -/
theorem test_placed_word_runs_after_reset :
    nextOf (step (State.reset.withFetchWord 8 0xAF)) =
      some { State.reset with boot := [(0, 0xAF)], f := 0x80, pc := 0x0001 } := by decide

/-! ### Errors: V-DE, V-ERR and the programs' last steps -/

/-- `CB` at 0x00FF: the opcode error, not the boot window's (R87); PC = 0x0100. -/
theorem test_unimplemented_opcode_comes_first :
    nextOf (step (blockAt 0x00FF [0xCB])) =
      some { blockAt 0x00FF [0xCB] with pc := 0x0100, fault := some (.unimplementedOpcode 0xCB 0x00FF) } := by decide

/-- P3: `31 CD` at 0x00FE: the high byte's Fetch at 0x0100 raises; SP keeps its value. -/
theorem test_straddle :
    nextOf (step { blockAt 0x00FE [0x31, 0xCD] with sp := 0xBEEF }) =
      some { blockAt 0x00FE [0x31, 0xCD] with
        sp := 0xBEEF, pc := 0x0100, fault := some (.invalidBootstrapAccess 0x0100) } := by decide

/-- P6: a block built unmapped. -/
theorem test_unmapped_step :
    nextOf (step unmapped) =
      some { unmapped with fault := some (.unimplementedRegion (.cartridgeBankZero 0x0000)) } := by decide

/-- A Step after an error: the same error again (V-ERR). -/
theorem test_latched_step :
    faultOf (step { State.reset with fault := some .notMapped }) = some (.latched .notMapped) := by decide

/-! ### The classifier: V-CL, every region's first and last address -/

theorem test_classify_mapped :
    classify 0x0000 true = .ok (.bootstrap 0x0000) ∧ classify 0x00FF true = .ok (.bootstrap 0x00FF) ∧
    classify 0x0100 true = .err (.invalidBootstrapAccess 0x0100) ∧
    classify 0x3FFF true = .err (.invalidBootstrapAccess 0x3FFF) := by decide

theorem test_classify_unmapped :
    classify 0x0000 false = .ok (.cartridgeBankZero 0x0000) ∧ classify 0x00FF false = .ok (.cartridgeBankZero 0x00FF) ∧
    classify 0x0100 false = .ok (.cartridgeBankZero 0x0100) ∧
    classify 0x3FFF false = .ok (.cartridgeBankZero 0x3FFF) := by decide

theorem test_classify_above :
    ∀ bm : Bool,
      classify 0x4000 bm = .ok (.cartridgeBankSwitchable 0x0000) ∧
      classify 0x7FFF bm = .ok (.cartridgeBankSwitchable 0x3FFF) ∧
      classify 0x8000 bm = .ok (.vram 0x0000) ∧ classify 0x9FFF bm = .ok (.vram 0x1FFF) ∧
      classify 0xA000 bm = .ok (.cartridgeRam 0x0000) ∧ classify 0xBFFF bm = .ok (.cartridgeRam 0x1FFF) ∧
      classify 0xC000 bm = .ok (.workRam 0x0000) ∧ classify 0xCFFF bm = .ok (.workRam 0x0FFF) ∧
      classify 0xD000 bm = .ok (.workRam2 0x0000) ∧ classify 0xDFFF bm = .ok (.workRam2 0x0FFF) ∧
      classify 0xE000 bm = .ok (.prohibitedEchoRam 0x0000) ∧ classify 0xFDFF bm = .ok (.prohibitedEchoRam 0x1DFF) ∧
      classify 0xFE00 bm = .ok (.objectAttributeMemory 0x0000) ∧
      classify 0xFE9F bm = .ok (.objectAttributeMemory 0x009F) ∧
      classify 0xFEA0 bm = .ok (.prohibited 0x0000) ∧ classify 0xFEFF bm = .ok (.prohibited 0x005F) ∧
      classify 0xFF00 bm = .ok (.ioRegisters 0x0000) ∧ classify 0xFF7F bm = .ok (.ioRegisters 0x007F) ∧
      classify 0xFF80 bm = .ok (.hiRam 0x0000) ∧ classify 0xFFFE bm = .ok (.hiRam 0x007E) ∧
      classify 0xFFFF bm = .ok .interruptEnableRegister := by decide

/-! ### The Bus and the store: V-BUS (bytes of the image `boot[i] = i XOR 0x5A`) -/

/-- The bytes of that image at 0x00, 0x01, 0x02, 0xFE and 0xFF. -/
def xorImage : State :=
  { State.reset with boot := [(0x00, 0x5A), (0x01, 0x5B), (0x02, 0x58), (0xFE, 0xA4), (0xFF, 0xA5)] }

theorem test_bus_reads :
    memRead 0x0000 xorImage = .ok 0x5A ∧ memRead 0x00FF xorImage = .ok 0xA5 ∧
    memRead 0xC123 xorImage = .err (.unimplementedRegion (.workRam 0x0123)) ∧
    memRead 0xFFFF xorImage = .err (.unimplementedRegion .interruptEnableRegister) := by decide

theorem test_bus_writes :
    memWrite 0x2000 0x01 xorImage = .err (.invalidBootstrapAccess 0x2000) ∧
    memWrite 0x2000 0x01 unmapped = .err (.readOnlyRegion (.cartridgeBankZero 0x2000)) ∧
    memWrite 0x0000 0x12 xorImage = .err (.readOnlyRegion (.bootstrap 0x0000)) ∧
    memWrite 0xFF80 0x01 xorImage = .err (.unimplementedRegion (.hiRam 0x0000)) := by decide

theorem test_store_reads :
    bootRead16 0x00 xorImage = ⟨.ok 0x5B5A, xorImage⟩ ∧ bootRead16 0xFE xorImage = ⟨.ok 0xA5A4, xorImage⟩ ∧
    bootRead16 0xFF xorImage = ⟨.refused .bootRead16AtEnd, xorImage⟩ ∧
    (bootRead8 0x00 unmapped).answer = .err .notMapped := by decide

/-- I5: the error of an unmapped store read is latched, so the next Step answers it again (R85). -/
theorem test_unmapped_store_read_is_latched :
    (bootRead8 0x00 unmapped).state = { unmapped with fault := some .notMapped } ∧
    (stepReply (bootRead8 0x00 unmapped).state).answer = .err .notMapped := by decide

/-- V-FE: three Fetches from 0x0000. -/
theorem test_fetch_three :
    ((fetch xorImage).andThen fun _ s => (fetch s).andThen fun _ t => fetch t) =
      ⟨.ok 0x58, { xorImage with pc := 0x0003 }⟩ := by decide

/-! ### The register file: V-RF -/

theorem test_register_file :
    (State.reset.write8 .f 0xA5).read8 .f = 0xA0 ∧ (State.reset.write16 .af 0x12FF).read16 .af = 0x12F0 ∧
    ((State.reset.write16 .hl 0x1234).write8 .l 0xFF).read16 .hl = 0x12FF ∧
    ((State.reset.write8 .a 0x80).write8 .f 0x3C).read16 .af = 0x8030 ∧
    (State.reset.write16 .bc 0xBEEF).read8 .b = 0xBE := by decide

/-! ### Construction: V-ERR -/

theorem test_build_refuses_wrong_sizes :
    build [] true resetDraws = .err (.bootstrapLoadError 256 0) ∧
    build (List.replicate 255 0x00) true resetDraws = .err (.bootstrapLoadError 256 255) ∧
    build (List.replicate 257 0x00) true resetDraws = .err (.bootstrapLoadError 256 257) := by
  have hb : ∀ n, n ≠ 256 →
      build (List.replicate n 0x00) true resetDraws = .err (.bootstrapLoadError 256 n) := by
    intro n h
    rw [build, List.length_replicate, if_neg h]
  exact ⟨hb 0 (by decide), hb 255 (by decide), hb 257 (by decide)⟩

/-! ### Witnesses: a state and operands that meet each obligation's hypotheses -/

/-- An image of 256 bytes: `AF` everywhere (P5). -/
def longRun : List Byte := List.replicate 256 0xAF

theorem longRun_length : longRun.length = 256 := List.length_replicate ..

theorem longRun_last : longRun[255]? = some 0xAF := by rw [longRun, List.getElem?_replicate, if_pos (by decide)]

/-- What `build` answers for it. -/
theorem build_longRun (bm0 : Bool) : build longRun bm0 resetDraws = .ok (resetState longRun bm0 resetDraws) := by
  rw [build, if_pos longRun_length]

theorem witness_EachInstructionHasOneEncoding : decode [0xAF, 0x21] = .ok (.xorA, [0x21]) := rfl

theorem witness_DecodeReportsEveryUnimplementedOpcode :
    State.reset.Running ∧ (decodeAt 0x00 0x0010 State.reset).answer = .err (.unimplementedOpcode 0x00 0x0010) ∧
    (decodeAt 0x20 0x0000 State.reset).answer = .err (.unimplementedOpcode 0x20 0x0000) ∧
    (decodeAt 0x22 0x0000 State.reset).answer = .err (.unimplementedOpcode 0x22 0x0000) ∧
    (decodeAt 0xFF 0x00FF State.reset).answer = .err (.unimplementedOpcode 0xFF 0x00FF) := by decide

theorem witness_UnimplementedOpcodeFetchesNoOperand :
    State.reset.Running ∧ (0xB0 : Byte) ≠ 0x31 ∧ (0xB0 : Byte) ≠ 0xAF ∧ (0xB0 : Byte) ≠ 0x21 := by decide

theorem witness_DecodedLengthIsTheBytesConsumed :
    (blockAt 0x0001 [0xFE, 0xFF]).pc = 0x0000 + 1 ∧
    decodeAt 0x31 0x0000 (blockAt 0x0001 [0xFE, 0xFF]) =
      ⟨.ok ldSpRecord, { blockAt 0x0001 [0xFE, 0xFF] with pc := 0x0003 }⟩ := by decide

theorem witness_WritingAByteRegisterChangesThatRegisterOnly : Reg8.a ≠ .f ∧ Reg8.f ≠ .a := by decide

theorem witness_LowNibbleOfFIsZeroInEveryReachableState :
    (resetState longRun true { resetDraws with f := 0xFF }).Reachable ∧
    (resetState longRun true { resetDraws with f := 0xFF }).f = 0xF0 :=
  ⟨⟨longRun, true, { resetDraws with f := 0xFF }, _, by rw [build, if_pos longRun_length], .start⟩, by decide⟩

theorem witness_PairsReadHighByteFirst :
    ({ State.reset with a := 0x12, f := 0xF0 } : State).f &&& 0x0F = 0 ∧
    ({ State.reset with a := 0x12, f := 0xF0 } : State).read16 .af = 0x12F0 := by decide

theorem witness_WritingAPairWritesItsTwoHalves :
    pairHalves .af = some (.a, .f) ∧ pairHalves .hl = some (.h, .l) ∧ pairHalves .sp = none ∧ Reg8.b ≠ .h ∧ Reg8.b ≠ .l := by
  decide

theorem witness_PairSeesWritesToItsHalves : pairHalves .de = some (.d, .e) ∧ Reg8.e ≠ .f := by decide

theorem witness_BootWindowDecidesLowAddresses :
    (0x00FF : Word).toNat ≤ 0x00FF ∧ 0x0100 ≤ (0x0100 : Word).toNat ∧ (0x3FFF : Word).toNat ≤ 0x3FFF ∧
    State.reset.bm = true ∧ memRead 0x3FFF State.reset = .err (.invalidBootstrapAccess 0x3FFF) := by decide

theorem witness_RegionTableAboveTheBootWindow :
    (0x4000 ≤ (0x7FFF : Word).toNat ∧ (0x7FFF : Word).toNat ≤ 0x7FFF) ∧
    (0x8000 ≤ (0x8000 : Word).toNat ∧ (0x9FFF : Word).toNat ≤ 0x9FFF) ∧
    (0xA000 ≤ (0xA000 : Word).toNat ∧ (0xBFFF : Word).toNat ≤ 0xBFFF) ∧
    (0xC000 ≤ (0xC000 : Word).toNat ∧ (0xCFFF : Word).toNat ≤ 0xCFFF) ∧
    (0xD000 ≤ (0xD000 : Word).toNat ∧ (0xDFFF : Word).toNat ≤ 0xDFFF) ∧
    (0xE000 ≤ (0xE000 : Word).toNat ∧ (0xFDFF : Word).toNat ≤ 0xFDFF) ∧
    (0xFE00 ≤ (0xFE00 : Word).toNat ∧ (0xFE9F : Word).toNat ≤ 0xFE9F) ∧
    (0xFEA0 ≤ (0xFEA0 : Word).toNat ∧ (0xFEFF : Word).toNat ≤ 0xFEFF) ∧
    (0xFF00 ≤ (0xFF00 : Word).toNat ∧ (0xFF7F : Word).toNat ≤ 0xFF7F) ∧
    (0xFF80 ≤ (0xFF80 : Word).toNat ∧ (0xFFFE : Word).toNat ≤ 0xFFFE) ∧ (0xFFFF : Word).toNat = 0xFFFF := by decide

theorem witness_BusReadAnswersTheStoreOrRaises :
    State.reset.Running ∧ classify 0x00FF State.reset.bm = .ok (.bootstrap 0x00FF) ∧
    classify 0xFFFF State.reset.bm = .ok .interruptEnableRegister ∧
    classify 0x0100 State.reset.bm = .err (.invalidBootstrapAccess 0x0100) := by decide

theorem witness_NoBusWriteSucceeds :
    State.reset.Running ∧ State.reset.bm = true ∧ unmapped.Running ∧ unmapped.bm = false ∧
    (busWrite 0x00FF 0x12 State.reset).answer = .err (.readOnlyRegion (.bootstrap 0x00FF)) ∧
    (busWrite 0x0100 0x12 State.reset).answer = .err (.invalidBootstrapAccess 0x0100) ∧
    (busWrite 0x3FFF 0x12 unmapped).answer = .err (.readOnlyRegion (.cartridgeBankZero 0x3FFF)) ∧
    (busWrite 0x7FFF 0x12 unmapped).answer = .err (.readOnlyRegion (.cartridgeBankSwitchable 0x3FFF)) ∧
    (busWrite 0x8000 0x12 unmapped).answer = .err (.unimplementedRegion (.vram 0x0000)) := by decide

theorem witness_BootstrapStoreReads :
    xorImage.Running ∧ xorImage.bm = true ∧ (0xFE : Byte) ≠ 0xFF ∧ unmapped.Running ∧ unmapped.bm = false ∧
    ({ xorImage with fault := some .notMapped } : State).fault = some .notMapped := by decide

theorem witness_EveryReadSeesTheConstructionImage :
    build longRun true resetDraws = .ok (resetState longRun true resetDraws) ∧
    ReachableFrom (resetState longRun true resetDraws) (interact .step (resetState longRun true resetDraws)).state ∧
    longRun[(0x00FF : Word).toNat]? = some 0xAF :=
  ⟨build_longRun true, .interacted _ .step .start, longRun_last⟩

theorem witness_WrongImageSizeBuildsNoBlock : (List.replicate 255 (0x00 : Byte)).length ≠ 256 := by
  rw [List.length_replicate]; decide

theorem witness_BuildGivesTheResetState : longRun.length = 256 ∧ longRun[255]? = some 0xAF :=
  ⟨longRun_length, longRun_last⟩

/-- `31 CD` with its high byte past the window. -/
def straddleSp : State := blockAt 0x00FE [0x31, 0xCD]

/-- `31` with its low byte past the window. -/
def lastSp : State := blockAt 0x00FF [0x31]

theorem no_byte_at_0x0100 (s : State) (h : s.bm = true) : ∀ byte, memRead 0x0100 s ≠ .ok byte := by
  intro byte
  have hc : classify 0x0100 true = .err (.invalidBootstrapAccess 0x0100) := by decide
  rw [memRead, h, hc]
  exact fun he => nomatch he

theorem witness_LdSpD16LoadsSp :
    ((blockAt 0x0000 [0x31, 0xFE, 0xFF]).Running ∧ memRead 0x0000 (blockAt 0x0000 [0x31, 0xFE, 0xFF]) = .ok 0x31 ∧
      memRead 0x0001 (blockAt 0x0000 [0x31, 0xFE, 0xFF]) = .ok 0xFE ∧
      memRead 0x0002 (blockAt 0x0000 [0x31, 0xFE, 0xFF]) = .ok 0xFF) ∧
    (straddleSp.Running ∧ memRead straddleSp.pc straddleSp = .ok 0x31 ∧ (0x0100 : Word) = straddleSp.pc + 2 ∧
      memRead (straddleSp.pc + 1) straddleSp = .ok 0xCD) ∧
    (lastSp.Running ∧ memRead lastSp.pc lastSp = .ok 0x31 ∧ (0x0100 : Word) = lastSp.pc + 1) ∧
    (∀ byte, memRead 0x0100 straddleSp ≠ .ok byte) ∧ (∀ byte, memRead 0x0100 lastSp ≠ .ok byte) :=
  ⟨by decide, by decide, by decide, no_byte_at_0x0100 _ rfl, no_byte_at_0x0100 _ rfl⟩

/-- `21` with its low byte past the window. -/
def lastHl : State := blockAt 0x00FF [0x21]

/-- `21 34` with its high byte past the window. -/
def straddleHl : State := blockAt 0x00FE [0x21, 0x34]

theorem witness_LdHlD16LoadsHl :
    ((blockAt 0x0000 [0x21, 0x34, 0x12]).Running ∧ memRead 0x0000 (blockAt 0x0000 [0x21, 0x34, 0x12]) = .ok 0x21 ∧
      memRead 0x0001 (blockAt 0x0000 [0x21, 0x34, 0x12]) = .ok 0x34 ∧
      memRead 0x0002 (blockAt 0x0000 [0x21, 0x34, 0x12]) = .ok 0x12) ∧
    (straddleHl.Running ∧ memRead straddleHl.pc straddleHl = .ok 0x21 ∧ (0x0100 : Word) = straddleHl.pc + 2 ∧
      memRead (straddleHl.pc + 1) straddleHl = .ok 0x34) ∧
    (lastHl.Running ∧ memRead lastHl.pc lastHl = .ok 0x21 ∧ (0x0100 : Word) = lastHl.pc + 1) ∧
    (∀ byte, memRead 0x0100 straddleHl ≠ .ok byte) ∧ (∀ byte, memRead 0x0100 lastHl ≠ .ok byte) :=
  ⟨by decide, by decide, by decide, no_byte_at_0x0100 _ rfl, no_byte_at_0x0100 _ rfl⟩

theorem witness_XorAClearsAAndSetsZero :
    (blockAt 0x0003 [0xAF]).Running ∧ memRead (blockAt 0x0003 [0xAF]).pc (blockAt 0x0003 [0xAF]) = .ok 0xAF := by decide

theorem witness_EveryInstructionCompletesWhenRunning :
    State.reset.Running ∧ (nextOf (exec (.ldSpD16 0xFFFF) State.reset)).isSome = true ∧
    (nextOf (exec .xorA State.reset)).isSome = true ∧ (nextOf (exec (.ldHlD16 0x0000) State.reset)).isSome = true := by
  decide

theorem witness_ExecuteChangesOnlyTheDestinations :
    nextOf (exec .xorA State.reset) = some { State.reset with f := 0x80 } ∧
    nextOf (exec (.ldHlD16 0x1234) State.reset) = some { State.reset with h := 0x12, l := 0x34 } ∧
    nextOf (exec (.ldSpD16 0x1234) State.reset) = some { State.reset with sp := 0x1234 } := by decide

theorem witness_ExecuteReadsOnlyTheBoundBehaviour :
    ldSpRecord.op = { ldSpRecord with text := "", cycles := 0, origin := 0x0042 }.op := rfl

theorem witness_FetchReadsThenAdvances :
    (blockAt 0x00FF [0xA5]).Running ∧ memRead 0x00FF (blockAt 0x00FF [0xA5]) = .ok 0xA5 ∧
    (blockAt 0x0100 []).Running ∧ memRead 0x0100 (blockAt 0x0100 []) = .err (.invalidBootstrapAccess 0x0100) ∧
    ({ State.reset with fault := some .notMapped } : State).fault = some .notMapped := by decide

/-- At the last byte of the window one byte can be read, and it is enough for `XOR A`. -/
theorem witness_StepExecutesTheInstructionAtPc :
    (blockAt 0x00FF [0xAF]).Running ∧ readableBytes maxLength 0x00FF (blockAt 0x00FF [0xAF]) = [0xAF] ∧
    decode [0xAF] = .ok (.xorA, []) := ⟨by decide, by decide, rfl⟩

theorem witness_ControlFlowIsSequential :
    (okOf (stepReply (blockAt 0x00FD [0x21, 0x34, 0x12])).answer).isSome = true ∧
    (stepReply (blockAt 0x00FD [0x21, 0x34, 0x12])).state.pc = 0x0100 := by decide

theorem witness_StepOutcomeAgreesWithStepReply :
    ({ State.reset with fault := some .notMapped } : State).fault = some .notMapped ∧ State.reset.Running := by decide

theorem witness_RegistersDoNotSteerTheEngine :
    (blockAt 0x0000 [0xAF]).SameControl { blockAt 0x0000 [0xAF] with a := 0xFF, f := 0x70, sp := 0xBEEF } :=
  ⟨rfl, rfl, rfl, rfl⟩

theorem witness_StepRaisesTheFirstErrorInOrder :
    ((blockAt 0x0100 []).Running ∧ memRead 0x0100 (blockAt 0x0100 []) = .err (.invalidBootstrapAccess 0x0100)) ∧
    ((blockAt 0x00FF [0xCB]).Running ∧ memRead 0x00FF (blockAt 0x00FF [0xCB]) = .ok 0xCB ∧ opcodeOfByte 0xCB = none) ∧
    (lastHl.Running ∧ memRead lastHl.pc lastHl = .ok 0x21 ∧
      memRead (lastHl.pc + 1) lastHl = .err (.invalidBootstrapAccess 0x0100)) ∧
    (straddleSp.Running ∧ memRead straddleSp.pc straddleSp = .ok 0x31 ∧
      memRead (straddleSp.pc + 1) straddleSp = .ok 0xCD ∧
      memRead (straddleSp.pc + 2) straddleSp = .err (.invalidBootstrapAccess 0x0100)) := by decide

theorem witness_RaisingStepMovesOnlyPcAndLatch :
    straddleSp.Running ∧
    stepReply straddleSp =
      ⟨.err (.invalidBootstrapAccess 0x0100),
       { straddleSp with pc := 0x0100, fault := some (.invalidBootstrapAccess 0x0100) }⟩ := by decide

theorem witness_FaultLatchIsSticky :
    ({ State.reset with fault := some (.unimplementedOpcode 0x32 0x0007) } : State).fault =
      some (.unimplementedOpcode 0x32 0x0007) := rfl

theorem witness_HostSeesOnlyFetchAndDecodeErrors :
    unmapped.Running ∧
    (interact .fetch unmapped).answer = .err (.unimplementedRegion (.cartridgeBankZero 0x0000)) := by decide

theorem witness_HostCannotReachBeyondItsRights :
    Interaction.write8 .f 0xFF ≠ .step ∧ Interaction.write8 .f 0xFF ≠ .fetch ∧
    ∀ byte origin, Interaction.write8 .f 0xFF ≠ .decode byte origin := ⟨by simp, by simp, by simp⟩

/-- The bytes would not fit after 0x00FE, so PC is 0x0000. -/
theorem witness_PlacedWordIsTheNextInstruction :
    (blockAt 0x00FE [0x31, 0xCD]).boot.wf = true ∧ decodeTableWord 24 0x123421 = some (.ldHlD16 0x1234) ∧
    ((blockAt 0x00FE [0x31, 0xCD]).withFetchWord 24 0x123421).pc = 0x0000 ∧
    ((blockAt 0x00FD [0x31, 0xCD]).withFetchWord 24 0x123421).pc = 0x00FD := by decide

theorem witness_EveryBuildMeetsTheInvariants :
    build longRun false resetDraws = .ok (resetState longRun false resetDraws) := build_longRun false

/-- A latched state meets both invariants too: the end state of P3. -/
def afterStraddle : State := { straddleSp with pc := 0x0100, fault := some (.invalidBootstrapAccess 0x0100) }

theorem witness_EveryInteractionKeepsTheInvariant : straddleSp.Inv ∧ afterStraddle.Inv :=
  ⟨⟨by decide, by decide, by decide⟩, ⟨by decide, by decide, by decide⟩⟩

theorem witness_EveryStepKeepsTheRunInvariant : straddleSp.RunInv ∧ nextOf (step straddleSp) = some afterStraddle :=
  ⟨⟨⟨by decide, by decide, by decide⟩, trivial⟩, by decide⟩

theorem witness_EveryRunEndsWithin257Steps :
    build longRun true resetDraws = .ok (resetState longRun true resetDraws) := build_longRun true

theorem witness_UnmappedBlockRaisesAtItsFirstStep :
    build longRun false { resetDraws with a := 0x5A } = .ok (resetState longRun false { resetDraws with a := 0x5A }) := by
  rw [build, if_pos longRun_length]

end Sys2Proof.Tests
end

section
/-! The register file: the pair views and the frame of the register writes (`10_state.md` §1 to §3), the invariant of
every reachable state, and the obligations about them. -/

namespace Sys2Proof.Machine

/-! ### The halves of a word -/

/-- `hi ++ lo` is `(hi << 8) | lo` (`00_scope.md` §4). -/
theorem joinBytes_eq_shiftLeft_or (hi lo : Byte) :
    joinBytes hi lo = (hi.zeroExtend 16 <<< 8) ||| lo.zeroExtend 16 := by
  apply BitVec.eq_of_getLsbD_eq
  intro i hlt
  rw [getLsbD_joinBytes]
  by_cases hi8 : i < 8
  · simp [hi8, hlt]
  · simp [hi8, hlt, BitVec.getLsbD_of_ge lo i (by omega)]

/-- A mask applies to each half on its own. -/
theorem joinBytes_and_joinBytes (hi lo hi' lo' : Byte) :
    joinBytes hi lo &&& joinBytes hi' lo' = joinBytes (hi &&& hi') (lo &&& lo') :=
  BitVec.and_append

/-- The low nibble of a word is that of its low half. -/
theorem joinBytes_and_lowNibble (hi lo : Byte) : joinBytes hi lo &&& 0x000F = joinBytes 0 (lo &&& 0x0F) := by
  rw [show (0x000F : Word) = joinBytes 0x00 0x0F from rfl, joinBytes_and_joinBytes]
  simp

/-- Dropping a word's low nibble drops that of its low half. -/
theorem joinBytes_halves_and_highNibbles (v : Word) :
    joinBytes (hiByte v) (loByte v &&& 0xF0) = v &&& 0xFFF0 := by
  conv_rhs => rw [← joinBytes_halves v, show (0xFFF0 : Word) = joinBytes (BitVec.allOnes 8) 0xF0 from rfl]
  rw [joinBytes_and_joinBytes, BitVec.and_allOnes]

/-- What F keeps of a byte has a zero low nibble (R12). -/
theorem highNibble_and_lowNibble (v : Byte) : (v &&& 0xF0) &&& 0x0F = 0 := by
  rw [BitVec.and_assoc, show (0xF0 : Byte) &&& 0x0F = 0 from rfl]
  simp

/-! ### The pair views -/

section pair
variable {p : Reg16} {hi lo : Reg8} (h : pairHalves p = some (hi, lo)) (s : State)
include h

/-- The two halves of a pair are different registers, and F is a half of AF only, the low one (R13). -/
theorem pairHalves_spec : hi ≠ .f ∧ hi ≠ lo ∧ (lo = .f ↔ p = .af) := by
  cases p <;> cases h <;> decide

theorem read16_pair : s.read16 p = joinBytes (s.read8 hi) (s.read8 lo) := by
  simp [State.read16, h]

theorem write16_pair (v : Word) : s.write16 p v = (s.write8 hi (hiByte v)).write8 lo (loByte v) := by
  simp [State.write16, h]

theorem read8_write16_high (v : Word) : (s.write16 p v).read8 hi = hiByte v := by
  obtain ⟨hhi, hne, -⟩ := pairHalves_spec h
  rw [write16_pair h, read8_write8_other _ _ _ hne, read8_write8_same _ _ _ hhi]

/-- The low half of AF is F, which keeps the high nibble only (R12). -/
theorem read8_write16_low (v : Word) :
    (s.write16 p v).read8 lo = if p = .af then loByte v &&& 0xF0 else loByte v := by
  obtain ⟨-, -, hf⟩ := pairHalves_spec h
  simp [write16_pair h, read8_write8, hf]

theorem read8_write16_other {r : Reg8} (hrhi : r ≠ hi) (hrlo : r ≠ lo) (v : Word) :
    (s.write16 p v).read8 r = s.read8 r := by
  rw [write16_pair h, read8_write8_other _ _ _ hrlo, read8_write8_other _ _ _ hrhi]

theorem write16_pair_sp (v : Word) : (s.write16 p v).sp = s.sp := by
  simp [write16_pair h]

theorem hiByte_read16 : hiByte (s.read16 p) = s.read8 hi := by
  rw [read16_pair h, hiByte_joinBytes]

theorem loByte_read16 : loByte (s.read16 p) = s.read8 lo := by
  rw [read16_pair h, loByte_joinBytes]

end pair

/-- Every operand form but SP has two halves (R10, R13). -/
theorem pairHalves_eq_none_iff {p : Reg16} : pairHalves p = none ↔ p = .sp := by
  cases p <;> simp [pairHalves]

/-- SP is no pair: a write to it reaches no 8-bit register (R10). -/
theorem read8_write16_sp (s : State) (v : Word) (r : Reg8) : (s.write16 .sp v).read8 r = s.read8 r := by
  cases r <;> rfl

/-- What a pair, or SP, reads as after a write to it (R12, R14). -/
theorem read16_write16 (s : State) (p : Reg16) (v : Word) :
    (s.write16 p v).read16 p = if p = .af then v &&& 0xFFF0 else v := by
  cases hp : pairHalves p with
  | none =>
    obtain rfl := pairHalves_eq_none_iff.1 hp
    rfl
  | some halves =>
    obtain ⟨hi, lo⟩ := halves
    rw [read16_pair hp, read8_write16_high hp, read8_write16_low hp]
    split
    · exact joinBytes_halves_and_highNibbles v
    · exact joinBytes_halves v

/-! ### The invariant of every reachable state -/

section inv
variable {s t : State} (hs : s.Inv)
include hs

theorem write8_inv (r : Reg8) (v : Byte) : (s.write8 r v).Inv where
  lowNibble := write8_lowNibble s r v hs.lowNibble
  store := by rw [write8_boot]; exact hs.store
  pcInWindow := by rw [write8_pc]; exact hs.pcInWindow

theorem write16_inv (p : Reg16) (v : Word) : (s.write16 p v).Inv where
  lowNibble := write16_lowNibble s p v hs.lowNibble
  store := by rw [write16_boot]; exact hs.store
  pcInWindow := by rw [write16_pc]; exact hs.pcInWindow

theorem effect_inv (i : Instr) : (effect i s).Inv where
  lowNibble := effect_lowNibble i s hs.lowNibble
  store := by rw [effect_boot]; exact hs.store
  pcInWindow := by rw [effect_pc]; exact hs.pcInWindow

/-- Fetching keeps the invariant: PC only passes bytes that could be read, and those lie in the boot window. -/
theorem FetchedOn.inv (ht : FetchedOn s t) : t.Inv := by
  obtain ⟨n, latch, hread, rfl⟩ := ht
  refine ⟨hs.lowNibble, hs.store, ?_⟩
  cases n with
  | zero => simpa using hs.pcInWindow
  | succ n =>
    obtain ⟨v, hv⟩ := hread n (Nat.lt_succ_self n)
    obtain ⟨-, hlast, -⟩ := memRead_ok_iff.1 hv
    change (s.pc + BitVec.ofNat 16 (n + 1)).toNat ≤ 0x0100
    rw [BitVec.ofNat_add, ← BitVec.add_assoc]
    bv_omega

end inv

/-- An instruction that Step decoded was fetched: each of its bytes could be read. -/
theorem readable_of_readableBytes_eq_encode {i : Instr} {a : Word} {s : State}
    (h : readableBytes (lengthOf (opcodeOf i)) a s = encode i) :
    ∀ k < lengthOf (opcodeOf i), ∃ v, memRead (a + BitVec.ofNat 16 k) s = .ok v := by
  apply readableBytes_all
  rw [h]
  cases i <;> rfl

/-- What a Step leaves: the state its Fetches left, or an instruction's effect on that. -/
theorem stepReply_fetchedOn (s : State) :
    FetchedOn s (stepReply s).state ∨ ∃ i t, FetchedOn s t ∧ (stepReply s).state = effect i t := by
  cases hf : s.fault with
  | some e => rw [stepReply_latched hf]; exact .inl (.refl s)
  | none =>
    rcases step_cases hf with ⟨i, hbytes, hstep, -⟩ | ⟨n, e, ⟨-, hread, -⟩, hstep, -⟩ <;> rw [hstep]
    · exact .inr ⟨i, _, ⟨_, none, readable_of_readableBytes_eq_encode hbytes, by rw [← hf]⟩, rfl⟩
    · exact .inl ⟨n, some e, hread, rfl⟩

theorem stepReply_inv {s : State} (hs : s.Inv) : (stepReply s).state.Inv := by
  rcases stepReply_fetchedOn s with ht | ⟨i, t, ht, heq⟩
  · exact ht.inv hs
  · rw [heq]; exact effect_inv (ht.inv hs) i

theorem execute_inv {s : State} (hs : s.Inv) (i : Instruction) : (execute i s).state.Inv := by
  cases hf : s.fault with
  | some e => rw [execute_latched i hf]; exact hs
  | none => rw [execute_running i hf]; exact effect_inv hs i.op

theorem interact_inv (x : Interaction) {s : State} (hs : s.Inv) : (interact x s).state.Inv := by
  cases x with
  | step => rw [interact, respond_state]; exact stepReply_inv hs
  | fetch => rw [interact, respond_state]; exact (fetch_fetchedOn s).inv hs
  | decode byte origin => rw [interact, respond_state]; exact (decodeAt_fetchedOn byte origin s).inv hs
  | execute i => rw [interact, respond_state]; exact execute_inv hs i
  | classify a bm => rw [interact, respond_state]; exact hs
  | read8 r => exact hs
  | read16 p => exact hs
  | write8 r v => exact write8_inv hs r v
  | write16 p v => exact write16_inv hs p v

/-- A block that builds meets the invariant (R12, R95). -/
theorem build_inv {image : List Byte} {bm0 : Bool} {w : Draws} {s : State} (h : build image bm0 w = .ok s) :
    s.Inv := by
  unfold build at h
  split at h
  next hlen =>
    cases h
    exact ⟨highNibble_and_lowNibble w.f, Memory.ofImage_wf hlen.le, Nat.zero_le _⟩
  next => cases h

/-- What a built block meets and every interaction keeps holds of every reachable state. -/
theorem State.Reachable.inv {s : State} (h : s.Reachable) : s.Inv := by
  obtain ⟨image, bm0, w, s0, hbuild, hreach⟩ := h
  induction hreach with
  | start => exact build_inv hbuild
  | interacted s x _ ih => exact interact_inv x ih

/-! ### The obligations -/

/-- Settles O43: fetching moves PC over bytes of the boot window only, and every other interaction leaves PC and the
store alone and writes F, if at all, through its mask. -/
theorem everyInteractionKeepsTheInvariant : Obligations.EveryInteractionKeepsTheInvariant :=
  fun x _ hs => interact_inv x hs

/-- Settles O9: the writes by their read-after-write lemmas, the reachable states by the invariant. -/
theorem lowNibbleOfFIsZeroInEveryReachableState : Obligations.LowNibbleOfFIsZeroInEveryReachableState := by
  refine ⟨fun s v => rfl, fun s v => ?_, fun s result => ?_, rfl, fun s hs => hs.inv.lowNibble⟩
  · exact read8_write16_low (p := .af) rfl s v
  · exact highNibble_and_lowNibble (flagsOf result)

/-- Settles O11, pair by pair through the halves; SP has none. -/
theorem writingAPairWritesItsTwoHalves : Obligations.WritingAPairWritesItsTwoHalves := by
  intro s p v
  refine ⟨read16_write16 s p v, fun hi lo hp => ⟨?_, ?_, ?_, ?_⟩, ?_,
    write16_pc s p v, write16_bm s p v, write16_boot s p v, write16_fault s p v⟩
  · exact read8_write16_high hp s v
  · exact read8_write16_low hp s v
  · exact fun r hrhi hrlo => read8_write16_other hp s hrhi hrlo v
  · exact write16_pair_sp hp s v
  · rintro rfl r
    exact read8_write16_sp s v r

/-- Settles O12: the half written reads as the byte, and the other half, a different register, as before. -/
theorem pairSeesWritesToItsHalves : Obligations.PairSeesWritesToItsHalves := by
  intro s p hi lo v hp
  obtain ⟨hhi, hne, -⟩ := pairHalves_spec hp
  rw [hiByte_read16 hp, loByte_read16 hp, read16_pair hp, read16_pair hp]
  refine ⟨?_, fun hlo => ?_⟩
  · rw [read8_write8_same _ _ _ hhi, read8_write8_other _ _ _ hne.symm]
  · rw [read8_write8_same _ _ _ hlo, read8_write8_other _ _ _ hne]

/-- Settles O8 by the read-after-write lemma and the frame of `write8`. -/
theorem writingAByteRegisterChangesThatRegisterOnly :
    Obligations.WritingAByteRegisterChangesThatRegisterOnly := by
  intro s r v hr
  exact ⟨read8_write8_same s r v hr, fun r' hr' => read8_write8_other s r v hr', write8_sp s r v,
    write8_pc s r v, write8_bm s r v, write8_boot s r v, write8_fault s r v⟩

/-- Settles O10: each pair is `joinBytes` of its two registers. -/
theorem pairsReadHighByteFirst : Obligations.PairsReadHighByteFirst := by
  intro s
  refine ⟨joinBytes_eq_shiftLeft_or s.a s.f, joinBytes_eq_shiftLeft_or s.b s.c,
    joinBytes_eq_shiftLeft_or s.d s.e, joinBytes_eq_shiftLeft_or s.h s.l, rfl, fun hf => ?_⟩
  change joinBytes s.a s.f &&& 0x000F = 0
  rw [joinBytes_and_lowNibble, hf]
  rfl

end Sys2Proof.Machine
end

section
/-! The memory map and the Bus: what the classifier answers at an address (`20_memory.md` R26 to R31), what a Bus read
and a Bus write make of that answer (R35 to R38), and the obligations about them. -/

namespace Sys2Proof.Machine

/-! ### The classifier as the table of R26 -/

/-- A region value holds an address when the map has the region under `bm`, and the address is the region's first
address plus the value's offset, which lies inside the region (R26, R31). -/
def Region.Holds (r : Region) (bm : Bool) (a : Word) : Prop :=
  regionMapped bm r = true ∧ regionOffset r < regionSize r ∧ a.toNat = regionFirst r + regionOffset r

/-- Each branch of the classifier answers a region that holds the address. The chain of bounds is read as one
disjunction, a branch per region, since splitting it `if` by `if` costs twice as much at each further bound. -/
theorem classify_holds {a : Word} {bm : Bool} {r : Region} (h : classify a bm = .ok r) : r.Holds bm a := by
  simp only [classify, ite_eq_iff, Answer.ok.injEq, reduceCtorEq, and_false, or_false] at h
  obtain ⟨_, ⟨hmapped, _, rfl⟩ | ⟨hmapped, rfl⟩⟩ | ⟨_, h⟩ := h
  · exact ⟨hmapped, by simp only [regionOffset, regionSize, regionFirst]; bv_omega⟩
  · exact ⟨by simp [regionMapped, hmapped], by simp only [regionOffset, regionSize, regionFirst]; bv_omega⟩
  · repeat' obtain ⟨_, rfl⟩ | ⟨_, h⟩ := h
    all_goals
      refine ⟨rfl, ?_⟩
      simp only [regionOffset, regionSize, regionFirst]
      bv_omega

theorem classify_of_holds {a : Word} {bm : Bool} {r : Region} (h : r.Holds bm a) : classify a bm = .ok r := by
  obtain ⟨hmapped, hlt, ha⟩ := h
  cases r with
  | bootstrap off =>
    obtain rfl : bm = true := hmapped
    simp only [regionOffset, regionSize, regionFirst] at hlt ha
    obtain rfl : a = off := by bv_omega
    exact classify_window (by omega)
  | cartridgeBankZero off =>
    obtain rfl : bm = false := by simpa [regionMapped] using hmapped
    simp only [regionOffset, regionSize, regionFirst] at hlt ha
    obtain rfl : a = off := by bv_omega
    exact classify_bank_zero (by omega)
  | interruptEnableRegister =>
    obtain rfl : a = 0xFFFF := BitVec.eq_of_toNat_eq ha
    rfl
  | _ off =>
    simp only [regionOffset, regionSize, regionFirst] at hlt ha
    simp only [classify, BitVec.le_def, BitVec.reduceToNat]
    simp (disch := omega) only [if_neg, if_pos]
    congr 2
    bv_omega

/-- The classifier is the table of R26 (R26, R29, R31). -/
theorem classify_ok_iff {a : Word} {bm : Bool} {r : Region} : classify a bm = .ok r ↔ r.Holds bm a :=
  ⟨classify_holds, classify_of_holds⟩

/-- The one band the map leaves out (`90_conflicts.md` C2). -/
theorem classify_ok_or_err (a : Word) (bm : Bool) :
    (∃ r, classify a bm = .ok r) ∨
      (classify a bm = .err (.invalidBootstrapAccess a) ∧ bm = true ∧ 0x0100 ≤ a.toNat ∧ a.toNat ≤ 0x3FFF) := by
  by_cases habove : 0x4000 ≤ a.toNat
  · obtain ⟨r, hr, -, -⟩ := classify_above habove bm
    exact .inl ⟨r, hr⟩
  cases bm with
  | false => exact .inl ⟨_, classify_bank_zero (by omega)⟩
  | true =>
    by_cases hwin : a.toNat ≤ 0x00FF
    · exact .inl ⟨_, classify_window hwin⟩
    · exact .inr ⟨classify_past_window (by omega) (by omega), rfl, by omega, by omega⟩

/-- One row of the table: `region` names the addresses from `first` to `last`. -/
theorem classify_row {bm : Bool} {first size last : Nat} {a : Word} (region : Word → Region)
    (hrow : ∀ off, regionMapped bm (region off) = true ∧ regionOffset (region off) = off.toNat ∧
      regionFirst (region off) = first ∧ regionSize (region off) = size)
    (hlast : first + size = last + 1) (ha : first ≤ a.toNat ∧ a.toNat ≤ last) :
    classify a bm = .ok (region (BitVec.ofNat 16 (a.toNat - first))) := by
  obtain ⟨hmapped, hoff, hfirst, hsize⟩ := hrow (BitVec.ofNat 16 (a.toNat - first))
  have hnat : (BitVec.ofNat 16 (a.toNat - first)).toNat = a.toNat - first := Nat.mod_eq_of_lt (by omega)
  exact classify_of_holds ⟨hmapped, by omega, by omega⟩

/-- The read-only regions lie below 0x8000 (R38). -/
theorem readOnlyRegions_end {r : Region} (h : readOnlyRegions r = true) :
    regionFirst r + regionSize r ≤ 0x8000 := by
  cases r with
  | bootstrap _ | cartridgeBankZero _ | cartridgeBankSwitchable _ => simp only [regionFirst, regionSize]; omega
  | _ => cases h

theorem not_readOnly_of_classify {a : Word} {bm : Bool} {r : Region} (h : classify a bm = .ok r)
    (ha : 0x8000 ≤ a.toNat) : readOnlyRegions r = false := by
  obtain ⟨-, hlt, haddr⟩ := classify_holds h
  by_contra hro
  have := readOnlyRegions_end (by simpa using hro)
  omega

/-! ### The Bus on a classified address -/

section bus
variable {a : Word} {s : State}

theorem memRead_of_bootstrap {off : Word} (h : classify a s.bm = .ok (.bootstrap off)) :
    memRead a s = .ok (s.boot.read off.toNat) := by
  simp [memRead, h]

/-- Only Bootstrap has a store (R36). -/
theorem memRead_of_other {r : Region} (h : classify a s.bm = .ok r) (hr : ∀ off, r ≠ .bootstrap off) :
    memRead a s = .err (.unimplementedRegion r) := by
  simp [memRead, h]

theorem memRead_of_err {e : Error} (h : classify a s.bm = .err e) : memRead a s = .err e := by
  simp [memRead, h]

theorem memWrite_of_err {e : Error} (v : Byte) (h : classify a s.bm = .err e) : memWrite a v s = .err e := by
  simp [memWrite, h]

/-- No write succeeds (R37). -/
theorem memWrite_raises (a : Word) (v : Byte) (s : State) : ∃ e, memWrite a v s = .err e := by
  rcases classify_ok_or_err a s.bm with ⟨r, hr⟩ | ⟨he, -⟩
  · exact ⟨_, memWrite_region hr⟩
  · exact ⟨_, memWrite_of_err v he⟩

variable (hs : s.Running)
include hs

theorem busRead_of_ok {byte : Byte} (h : memRead a s = .ok byte) : busRead a s = ⟨.ok byte, s⟩ := by
  rw [busRead, guarded_running _ hs, h, raising_ok]

theorem busRead_of_err {e : Error} (h : memRead a s = .err e) :
    busRead a s = ⟨.err e, { s with fault := some e }⟩ := by
  rw [busRead, guarded_running _ hs, h, raising_err]

theorem busWrite_of_err {v : Byte} {e : Error} (h : memWrite a v s = .err e) :
    busWrite a v s = ⟨.err e, { s with fault := some e }⟩ := by
  rw [busWrite, guarded_running _ hs, h, raising_err]

end bus

/-! ### The obligations -/

/-- Settles O14: the three low bands of the classifier, of which the middle one's error is that of every access. -/
theorem bootWindowDecidesLowAddresses : Obligations.BootWindowDecidesLowAddresses := by
  intro a
  refine ⟨classify_window, fun hlo hhi => ?_, classify_bank_zero⟩
  have hband : ∀ {bm}, bm = true → classify a bm = .err (.invalidBootstrapAccess a) := by
    rintro _ rfl
    exact classify_past_window hlo hhi
  exact ⟨hband rfl, fun s hbm => ⟨memRead_of_err (hband hbm), fun v => memWrite_of_err v (hband hbm)⟩⟩

/-- Settles O15, row by row; the last row is one address. -/
theorem regionTableAboveTheBootWindow : Obligations.RegionTableAboveTheBootWindow := by
  intro a bm
  exact ⟨classify_row .cartridgeBankSwitchable (fun _ => ⟨rfl, rfl, rfl, rfl⟩) (by decide),
    classify_row .vram (fun _ => ⟨rfl, rfl, rfl, rfl⟩) (by decide),
    classify_row .cartridgeRam (fun _ => ⟨rfl, rfl, rfl, rfl⟩) (by decide),
    classify_row .workRam (fun _ => ⟨rfl, rfl, rfl, rfl⟩) (by decide),
    classify_row .workRam2 (fun _ => ⟨rfl, rfl, rfl, rfl⟩) (by decide),
    classify_row .prohibitedEchoRam (fun _ => ⟨rfl, rfl, rfl, rfl⟩) (by decide),
    classify_row .objectAttributeMemory (fun _ => ⟨rfl, rfl, rfl, rfl⟩) (by decide),
    classify_row .prohibited (fun _ => ⟨rfl, rfl, rfl, rfl⟩) (by decide),
    classify_row .ioRegisters (fun _ => ⟨rfl, rfl, rfl, rfl⟩) (by decide),
    classify_row .hiRam (fun _ => ⟨rfl, rfl, rfl, rfl⟩) (by decide),
    fun ha => classify_of_holds ⟨rfl, Nat.one_pos, ha⟩⟩

/-- Settles O16: the classifier is the table, and it fails in the one band only. -/
theorem regionsPartitionTheAddressSpace : Obligations.RegionsPartitionTheAddressSpace :=
  ⟨fun _ _ _ => classify_ok_iff, classify_ok_or_err⟩

/-- Settles O17: the classifier's answer decides the read, and the transition hands on or raises what the read
answers. -/
theorem busReadAnswersTheStoreOrRaises : Obligations.BusReadAnswersTheStoreOrRaises := by
  intro a s hs
  refine ⟨fun off hc => ?_, fun r hc hr => ?_, fun e hc => ?_⟩
  · have hread := memRead_of_bootstrap hc
    exact ⟨hread, busRead_of_ok hs hread⟩
  · have hread := memRead_of_other hc hr
    exact ⟨hread, busRead_of_err hs hread⟩
  · have hread := memRead_of_err hc
    exact ⟨hread, busRead_of_err hs hread⟩

/-- Settles O18: every write raises some error; which one, the classifier's answer decides. -/
theorem noBusWriteSucceeds : Obligations.NoBusWriteSucceeds := by
  intro a v s hs
  obtain ⟨e, he⟩ := memWrite_raises a v s
  have hregion {r : Region} (hc : classify a s.bm = .ok r) :
      e = if readOnlyRegions r then .readOnlyRegion r else .unimplementedRegion r :=
    Answer.err.inj (he.symm.trans (memWrite_region hc))
  refine ⟨e, busWrite_of_err hs he, fun hbm ha => ?_, fun hbm hlo hhi => ?_, fun hbm ha => ?_,
    fun hlo hhi => ?_, fun ha => ?_⟩
  · exact hregion (hbm ▸ classify_window ha)
  · exact Answer.err.inj (he.symm.trans (memWrite_of_err v (hbm ▸ classify_past_window hlo hhi)))
  · exact hregion (hbm ▸ classify_bank_zero ha)
  · exact hregion (classify_row .cartridgeBankSwitchable (fun _ => ⟨rfl, rfl, rfl, rfl⟩) (by decide) ⟨hlo, hhi⟩)
  · obtain ⟨r, hr, -, -⟩ := classify_above (by omega : 0x4000 ≤ a.toNat) s.bm
    refine ⟨r, hr, ?_⟩
    rw [hregion hr, not_readOnly_of_classify hr ha]
    rfl

end Sys2Proof.Machine
end

section
/-! The Bootstrap store: its own reads (`20_memory.md` R39 to R42), that no interaction of the host writes it or moves
the boot-mapped bit (R45, R47), and the obligations about it. -/

namespace Sys2Proof.Machine

/-! ### The store and the boot-mapped bit never change -/

/-- Two states with the same boot-mapped bit and the same store, which is all a Bus read depends on. -/
structure State.SameImage (s t : State) : Prop where
  bm : t.bm = s.bm
  boot : t.boot = s.boot

theorem State.SameImage.trans {s t u : State} (hst : s.SameImage t) (htu : t.SameImage u) : s.SameImage u :=
  ⟨htu.bm.trans hst.bm, htu.boot.trans hst.boot⟩

theorem State.SameImage.memRead_eq {s t : State} (h : s.SameImage t) (a : Word) : memRead a t = memRead a s :=
  memRead_congr h.bm h.boot a

theorem FetchedOn.sameImage {s t : State} (h : FetchedOn s t) : s.SameImage t := by
  obtain ⟨_, _, -, rfl⟩ := h
  exact ⟨rfl, rfl⟩

theorem effect_sameImage (i : Instr) (s : State) : s.SameImage (effect i s) :=
  ⟨effect_bm i s, effect_boot i s⟩

theorem stepReply_sameImage (s : State) : s.SameImage (stepReply s).state := by
  rcases stepReply_fetchedOn s with ht | ⟨i, t, ht, heq⟩
  · exact ht.sameImage
  · rw [heq]; exact ht.sameImage.trans (effect_sameImage i t)

theorem execute_sameImage (i : Instruction) (s : State) : s.SameImage (execute i s).state := by
  cases hf : s.fault with
  | some e => rw [execute_latched i hf]; exact ⟨rfl, rfl⟩
  | none => rw [execute_running i hf]; exact effect_sameImage i.op s

theorem interact_sameImage (x : Interaction) (s : State) : s.SameImage (interact x s).state := by
  cases x with
  | step => rw [interact, respond_state]; exact stepReply_sameImage s
  | fetch => rw [interact, respond_state]; exact (fetch_fetchedOn s).sameImage
  | decode byte origin => rw [interact, respond_state]; exact (decodeAt_fetchedOn byte origin s).sameImage
  | execute i => rw [interact, respond_state]; exact execute_sameImage i s
  | classify a bm => rw [interact, respond_state]; exact ⟨rfl, rfl⟩
  | read8 r => exact ⟨rfl, rfl⟩
  | read16 p => exact ⟨rfl, rfl⟩
  | write8 r v => exact ⟨write8_bm s r v, write8_boot s r v⟩
  | write16 p v => exact ⟨write16_bm s p v, write16_boot s p v⟩

theorem ReachableFrom.sameImage {s0 s : State} (h : ReachableFrom s0 s) : s0.SameImage s := by
  induction h with
  | start => exact ⟨rfl, rfl⟩
  | interacted s x _ ih => exact ih.trans (interact_sameImage x s)

/-- A build that answers a block answers the reset state of an image of 256 bytes (R93). -/
theorem build_ok_iff {image : List Byte} {bm0 : Bool} {w : Draws} {s : State} :
    build image bm0 w = .ok s ↔ image.length = Config.bootSize ∧ resetState image bm0 w = s := by
  unfold build
  split <;> simp [*]

/-- Right after a mapped build the window reads as the image (R39, R95). -/
theorem memRead_resetState {image : List Byte} (hlen : image.length = Config.bootSize) (w : Draws) {a : Word}
    {byte : Byte} (h : image[a.toNat]? = some byte) : memRead a (resetState image true w) = .ok byte := by
  obtain ⟨hlt, -⟩ := List.getElem?_eq_some_iff.1 h
  rw [hlen] at hlt
  refine memRead_ok_iff.2 ⟨rfl, Nat.le_of_lt_succ hlt, ?_⟩
  change byte = (Memory.ofImage image).read a.toNat
  rw [Memory.read_ofImage hlen.le, List.getD_eq_getElem?_getD, h, Option.getD_some]

/-! ### The obligations -/

/-- Settles O20: reachable states keep the image of the build, whose store reads as that image. -/
theorem everyReadSeesTheConstructionImage : Obligations.EveryReadSeesTheConstructionImage := by
  intro image w s0 s a byte hbuild hreach hbyte
  obtain ⟨hlen, rfl⟩ := build_ok_iff.1 hbuild
  rw [hreach.sameImage.memRead_eq]
  exact memRead_resetState hlen w hbyte

/-- Settles O19: the case of each store read that the hypotheses leave; `read16` answers the bytes joined. -/
theorem bootstrapStoreReads : Obligations.BootstrapStoreReads := by
  intro off s
  refine ⟨fun hs hbm => ?_, fun hs hbm (hoff : off ≠ 255#8) => ?_,
    fun hs hbm hoff => ?_, fun hs hbm => ⟨?_, ?_⟩,
    fun e he => ⟨guarded_latched _ he, guarded_latched _ he⟩⟩
  · simpa [hs, hbm] using bootRead8_cases off s
  · rw [← joinBytes_eq_shiftLeft_or]
    simpa [hs, hbm, hoff, littleEndian] using bootRead16_cases off s
  · simpa [hs, hbm, hoff] using bootRead16_cases off s
  · simpa [hs, hbm] using bootRead8_cases off s
  · simpa [hs, hbm] using bootRead16_cases off s

end Sys2Proof.Machine
end

section
/-! The encoding: the byte-stream decoder against the encoder (`30_encoding.md` §1 to §3), the opcodes outside the map
(§4), the hex form of the disassembly text (§5), and the obligations about them. -/

namespace Sys2Proof.Machine

/-! ### Decoding and encoding -/

/-- The round trip of every instruction, whatever follows it (R50 to R52). -/
theorem decode_encode (i : Instr) (rest : List Byte) : decode (encode i ++ rest) = .ok (i, rest) := by
  cases i with
  | ldSpD16 v => exact Laws.RoundTrip.ldSpD16 v rest
  | xorA => exact Laws.RoundTrip.xorA rest
  | ldHlD16 v => exact Laws.RoundTrip.ldHlD16 v rest

theorem length_encode (i : Instr) : (encode i).length = lengthOf (opcodeOf i) := by
  cases i with
  | ldSpD16 v => exact Laws.Framing.ldSpD16 v
  | xorA => exact Laws.Framing.xorA
  | ldHlD16 v => exact Laws.Framing.ldHlD16 v

/-- The bytes an immediate is taken from are its halves, low byte first (R50). -/
theorem eq_halves_of_takeImm16 {bytes rest : List Byte} {v : Word} (h : takeImm16 bytes = some (v, rest)) :
    bytes = loByte v :: hiByte v :: rest := by
  match bytes with
  | [] | [_] => cases h
  | lo :: hi :: _ =>
    cases h
    simp [littleEndian]

/-- What decodes is an encoding: the opcode byte determines the row, and the immediate determines its two bytes. -/
theorem eq_encode_of_decode {bytes rest : List Byte} {i : Instr} (h : decode bytes = .ok (i, rest)) :
    bytes = encode i ++ rest := by
  cases bytes with
  | nil => cases h
  | cons byte operands =>
    cases ho : opcodeOfByte byte with
    | none => simp [decode, ho] at h
    | some o =>
      obtain rfl := opcodeByte_of_opcodeOfByte ho
      cases o with
      | xorA =>
        simp only [decode, ho] at h
        cases h
        rfl
      | ldSpD16 | ldHlD16 =>
        simp only [decode, ho] at h
        split at h
        next imm16 rest' himm =>
          cases h
          rw [eq_halves_of_takeImm16 himm]
          rfl
        next => cases h

/-! ### The bytes outside the map -/

theorem opcodeOfByte_eq_none_iff {byte : Byte} :
    opcodeOfByte byte = none ↔ byte ≠ 0x31 ∧ byte ≠ 0xAF ∧ byte ≠ 0x21 := by
  simp [opcodeOfByte_eq, ite_eq_iff]

/-! ### The hex form -/

/-- The digit of a nibble is the entry of that index in the list of the sixteen digits (R59). -/
theorem hexDigit_eq_getD (n : BitVec 4) :
    hexDigit n =
      ['0', '1', '2', '3', '4', '5', '6', '7', '8', '9', 'a', 'b', 'c', 'd', 'e', 'f'].getD n.toNat ' ' := by
  revert n; decide

/-- A word is the base 16 numeral of its four nibbles. -/
theorem toNat_eq_nibbles (v : Word) :
    v.toNat = (v.extractLsb' 12 4).toNat * 4096 + (v.extractLsb' 8 4).toNat * 256 +
      (v.extractLsb' 4 4).toNat * 16 + (v.extractLsb' 0 4).toNat := by
  simp only [BitVec.extractLsb'_toNat, Nat.shiftRight_eq_div_pow]
  omega

/-! ### The obligations -/

/-- Settles O1 by the round trip of each instruction. -/
theorem decodeOfEncodeIsTheInstruction : Obligations.DecodeOfEncodeIsTheInstruction :=
  decode_encode

/-- Settles O2: the decoder inverted, and the length of each encoding. -/
theorem eachInstructionHasOneEncoding : Obligations.EachInstructionHasOneEncoding :=
  fun _ i _ h => ⟨eq_encode_of_decode h, length_encode i⟩

/-- Settles O7: the digits are those of the word's four nibbles. -/
theorem hexTextIsFourLowercaseDigits : Obligations.HexTextIsFourLowercaseDigits := by
  intro v
  refine ⟨(v.extractLsb' 12 4).toFin, (v.extractLsb' 8 4).toFin, (v.extractLsb' 4 4).toFin,
    (v.extractLsb' 0 4).toFin, ?_, toNat_eq_nibbles v⟩
  simp only [hexText, hexDigit_eq_getD]
  rfl

/-- Settles O3: fixed words, so each decoding is computed. -/
theorem wordsWrittenFromTheSpecDecode : Obligations.WordsWrittenFromTheSpecDecode :=
  ⟨rfl, rfl, rfl, rfl⟩

/-- Settles O5: the byte names no opcode, and Decode then raises before any Fetch. -/
theorem unimplementedOpcodeFetchesNoOperand : Obligations.UnimplementedOpcodeFetchesNoOperand := by
  intro byte origin s hs hsp hxor hhl
  rw [decodeAt_unimplemented hs (opcodeOfByte_eq_none_iff.2 ⟨hsp, hxor, hhl⟩)]

end Sys2Proof.Machine
end

section
/-! The Engine: Fetch, Decode, Execute and Step (`40_engine.md`), what ends a Step before Execute and what a latched
block answers (`60_exceptions.md` R85), and the obligations about them. -/

namespace Sys2Proof.Machine

/-! ### Addresses and lengths -/

theorem add_one_add_ofNat (a : Word) (n : Nat) : a + 1 + BitVec.ofNat 16 n = a + BitVec.ofNat 16 (n + 1) := by
  rw [BitVec.add_assoc, Nat.add_comm, BitVec.ofNat_add]
  rfl

/-- An instruction has one byte or three (R49, R51). -/
theorem lengthOf_eq_one_or_three (o : Opcode) : lengthOf o = 1 ∨ lengthOf o = 3 := by
  cases o <;> decide

theorem lengthOf_le_three (o : Opcode) : lengthOf o ≤ 3 := by
  have := lengthOf_eq_one_or_three o
  omega

theorem lengthOf_of_opD16 {o : Opcode} (h : formatOf o = .opD16) : lengthOf o = 3 := by
  rw [lengthOf, h]
  rfl

/-! ### The bytes at PC -/

/-- The bytes that can be read from an address on, up to a smaller bound, are the first of those up to a larger one. -/
theorem take_readableBytes {n m : Nat} (h : n ≤ m) (a : Word) (s : State) :
    (readableBytes m a s).take n = readableBytes n a s := by
  induction m generalizing n a with
  | zero =>
    obtain rfl : n = 0 := by omega
    rfl
  | succ m ih =>
    cases n with
    | zero => rfl
    | succ n =>
      rcases memRead_ok_or_err a s with ⟨byte, hb⟩ | ⟨e, he⟩
      · rw [readableBytes_succ_ok hb, readableBytes_succ_ok hb, List.take_succ_cons, ih (by omega)]
      · rw [readableBytes_succ_err he, readableBytes_succ_err he, List.take_nil]

/-- Bytes that are read one after the other are the readable bytes. -/
theorem readableBytes_eq_of_memRead {bytes : List Byte} {a : Word} {s : State}
    (h : ∀ (k : Nat) (hk : k < bytes.length), memRead (a + BitVec.ofNat 16 k) s = .ok bytes[k]) :
    readableBytes bytes.length a s = bytes := by
  induction bytes generalizing a with
  | nil => rfl
  | cons byte bytes ih =>
    have hfirst : memRead a s = .ok byte := by simpa using h 0 (Nat.zero_lt_succ _)
    rw [List.length_cons, readableBytes_succ_ok hfirst, ih]
    intro k hk
    rw [add_one_add_ofNat]
    exact h (k + 1) (Nat.succ_lt_succ hk)

/-- The instruction `i` stands at `a`: its encoding can be read there. -/
def StandsAt (i : Instr) (a : Word) (s : State) : Prop :=
  readableBytes (lengthOf (opcodeOf i)) a s = encode i

theorem standsAt_of_decode {i : Instr} {rest : List Byte} {a : Word} {s : State}
    (h : decode (readableBytes maxLength a s) = .ok (i, rest)) : StandsAt i a s := by
  rw [StandsAt, ← take_readableBytes (lengthOf_le_three (opcodeOf i)), eq_encode_of_decode h, ← length_encode,
    List.take_left]

section standsAt
variable {i j : Instr} {a : Word} {s : State}

theorem StandsAt.memRead_opcode (h : StandsAt i a s) : memRead a s = .ok (opcodeByte (opcodeOf i)) := by
  rw [StandsAt, lengthOf, Nat.add_comm] at h
  rcases memRead_ok_or_err a s with ⟨byte, hb⟩ | ⟨e, he⟩
  · rw [readableBytes_succ_ok hb] at h
    rw [hb, (List.cons.inj h).1]
  · rw [readableBytes_succ_err he] at h
    cases h

/-- At most one instruction stands at an address: the opcode byte decides the length, and the bytes the immediate. -/
theorem StandsAt.unique (hi : StandsAt i a s) (hj : StandsAt j a s) : i = j := by
  have hopcode : opcodeOf i = opcodeOf j := by
    have hbyte := Answer.ok.inj (hi.memRead_opcode.symm.trans hj.memRead_opcode)
    simpa using congrArg opcodeOfByte hbyte
  have hencode : encode i = encode j := by
    rw [← hi, ← hj, hopcode]
  have hround := decode_encode i []
  rw [hencode, decode_encode] at hround
  cases hround
  rfl

/-- Where an instruction stands at PC, no Fetch and no opcode check stops the Step (R87). -/
theorem StandsAt.not_stopsBeforeExecute (h : StandsAt i s.pc s) (n : Nat) (e : Error) :
    ¬ StopsBeforeExecute s n e := by
  have hpos : 0 < lengthOf (opcodeOf i) := by rw [lengthOf]; omega
  have hopcode {byte : Byte} (hb : memRead s.pc s = .ok byte) : opcodeOfByte byte = some (opcodeOf i) := by
    rw [← Answer.ok.inj (h.memRead_opcode.symm.trans hb), opcodeOfByte_opcodeByte]
  rintro ⟨hn, -, ⟨herr, hwhy⟩ | ⟨-, byte, hb, hnone, -⟩⟩
  · have hlt : n < lengthOf (opcodeOf i) := by
      rcases hwhy with rfl | ⟨byte, o, hb, ho, hfmt⟩
      · exact hpos
      · obtain rfl : opcodeOf i = o := Option.some.inj ((hopcode hb).symm.trans ho)
        rw [lengthOf_of_opD16 hfmt]
        omega
    obtain ⟨v, hv⟩ := readable_of_readableBytes_eq_encode h n hlt
    cases herr.symm.trans hv
  · cases hnone.symm.trans (hopcode hb)

/-- A running block decodes the instruction that stands at PC, and PC is then past its bytes (R61, R68). -/
theorem StandsAt.fetchDecode_eq (h : StandsAt i s.pc s) (hs : s.Running) :
    fetchDecode s =
      ⟨.ok (mkInstruction s.pc i), { s with pc := s.pc + BitVec.ofNat 16 (lengthOf (opcodeOf i)) }⟩ := by
  rcases fetchDecode_cases hs with ⟨j, hj, heq⟩ | ⟨n, e, hstop, -⟩
  · obtain rfl : i = j := h.unique hj
    exact heq
  · exact absurd hstop (h.not_stopsBeforeExecute n e)

theorem StandsAt.step_eq (h : StandsAt i s.pc s) (hs : s.Running) :
    step s = exec i { s with pc := s.pc + BitVec.ofNat 16 (lengthOf (opcodeOf i)) } :=
  runCycle_ok hs (h.fetchDecode_eq hs)

end standsAt

/-! ### Answers that say the block was running -/

/-- Decode answers an Instruction on a running block only, after reading that Instruction's operand bytes. -/
theorem decodeAt_eq_ok {byte : Byte} {origin : Word} {s t : State} {i : Instruction}
    (h : decodeAt byte origin s = ⟨.ok i, t⟩) :
    ∃ op n, lengthOf (opcodeOf op) = n + 1 ∧ i = mkInstruction origin op ∧
      t = { s with pc := s.pc + BitVec.ofNat 16 n } := by
  cases hf : s.fault with
  | some e => rw [decodeAt_latched hf] at h; cases h
  | none =>
    rcases decodeAt_cases byte origin hf with ⟨op, n, -, hlen, -, heq⟩ | ⟨n, e, -, -, -, heq⟩
    · cases heq.symm.trans h
      exact ⟨op, n, hlen, rfl, by rw [← hf]⟩
    · cases heq.symm.trans h

/-- Execute completes on a running block only, in the state its effect gives (R66). -/
theorem exec_eq_next_iff {i : Instr} {s t : State} : exec i s = .next t ↔ s.Running ∧ t = effect i s := by
  cases hf : s.fault with
  | some e => simp [exec_latched i hf, State.Running, hf]
  | none => simp [exec_running i hf, State.Running, hf, eq_comm]

/-- Step answers an Instruction on a running block only: the one that stands at PC, executed past its bytes. -/
theorem stepReply_eq_ok {s t : State} {i : Instruction} (h : stepReply s = ⟨.ok i, t⟩) :
    ∃ op, s.Running ∧ StandsAt op s.pc s ∧ i = mkInstruction s.pc op ∧
      t = effect op { s with pc := s.pc + BitVec.ofNat 16 (lengthOf (opcodeOf op)) } := by
  cases hf : s.fault with
  | some e => rw [stepReply_latched hf] at h; cases h
  | none =>
    rcases step_cases hf with ⟨op, hbytes, heq, -⟩ | ⟨n, e, -, heq, -⟩
    · cases heq.symm.trans h
      exact ⟨op, hf, hbytes, rfl, by rw [← hf]⟩
    · cases heq.symm.trans h

/-! ### The frame of the instructions -/

section frame
variable (i : Instr) (s : State)

/-- The 8-bit destinations are A and F of `XOR A`, and H and L of `LD HL` (R73, R75). -/
theorem effect_read8 {r : Reg8} (hxor : i = .xorA → r ≠ .a ∧ r ≠ .f)
    (hhl : opcodeOf i = .ldHlD16 → r ≠ .h ∧ r ≠ .l) : (effect i s).read8 r = s.read8 r := by
  cases i with
  | ldSpD16 v => exact read8_write16_sp s v r
  | xorA =>
    obtain ⟨ha, hf⟩ := hxor rfl
    exact (read8_write8_other (s.write8 .a 0) .f 0x80 hf).trans (read8_write8_other s .a 0 ha)
  | ldHlD16 v =>
    obtain ⟨hh, hl⟩ := hhl rfl
    exact read8_write16_other (p := .hl) rfl s hh hl v

/-- SP is the destination of `LD SP` only (R72). -/
theorem effect_sp (h : opcodeOf i ≠ .ldSpD16) : (effect i s).sp = s.sp := by
  cases i with
  | ldSpD16 v => exact absurd rfl h
  | xorA | ldHlD16 v => rfl

end frame

/-! ### The latch -/

/-- No interaction clears or changes the latch: the operations of the
Engine answer the latched error, and the register operations do not look at the latch (R69, R85; log 5). -/
theorem interact_latched {s : State} {e : Error} (h : s.fault = some e) (x : Interaction) :
    (interact x s).state.fault = some e := by
  cases x with
  | step => rw [interact, respond_state, stepReply_latched h]; exact h
  | fetch => rw [interact, respond_state, fetch_latched h]; exact h
  | decode byte origin => rw [interact, respond_state, decodeAt_latched h]; exact h
  | execute i => rw [interact, respond_state, execute_latched i h]; exact h
  | classify a bm => rw [interact, respond_state]; exact h
  | read8 r => exact h
  | read16 p => exact h
  | write8 r v => exact (write8_fault s r v).trans h
  | write16 p v => exact (write16_fault s p v).trans h

/-! ### A placed word (log 3) -/

section place
variable (bytes : List Byte) (s : State)

/-- Three bytes from the PC that `placeBytes` leaves lie in the boot window. -/
theorem placeBytes_room : (placeBytes bytes s).pc.toNat + 3 ≤ Config.bootSize := by
  change (if fetchRoom s.pc then s.pc else 0x0000).toNat + 3 ≤ Config.bootSize
  split
  next hroom => exact of_decide_eq_true hroom
  next => decide

theorem placeBytes_boot :
    (placeBytes bytes s).boot = s.boot.writeBytes (placeBytes bytes s).pc.toNat bytes := rfl

variable {bytes s}

/-- The bytes placed are the bytes the next Fetches read. -/
theorem memRead_placeBytes (hwf : s.boot.wf = true) (hlen : bytes.length ≤ 3) {k : Nat} (hk : k < bytes.length) :
    memRead ((placeBytes bytes s).pc + BitVec.ofNat 16 k) (placeBytes bytes s) = .ok bytes[k] := by
  have hroom := placeBytes_room bytes s
  have hsize : Config.bootSize = 256 := rfl
  have haddr : ((placeBytes bytes s).pc + BitVec.ofNat 16 k).toNat = (placeBytes bytes s).pc.toNat + k := by
    rw [BitVec.toNat_add, BitVec.toNat_ofNat, Nat.mod_eq_of_lt (by omega : k < 2 ^ 16)]
    exact Nat.mod_eq_of_lt (by omega)
  refine memRead_ok_iff.2 ⟨rfl, by omega, ?_⟩
  rw [haddr, placeBytes_boot, Memory.read_writeBytes hwf _ (by omega), if_pos (by omega), Nat.add_sub_cancel_left,
    List.getD_eq_getElem]

theorem readableBytes_withFetchWord (hwf : s.boot.wf = true) (nbits w : Nat) :
    readableBytes maxLength (s.withFetchWord nbits w).pc (s.withFetchWord nbits w) = tableBytes nbits w :=
  readableBytes_eq_of_memRead (bytes := tableBytes nbits w) fun _ hk => memRead_placeBytes hwf (le_refl 3) hk

theorem decode_of_decodeTableWord {nbits w : Nat} {i : Instr} (h : decodeTableWord nbits w = some i) :
    ∃ rest, decode (tableBytes nbits w) = .ok (i, rest) := by
  unfold decodeTableWord at h
  split at h
  next j rest hdecode =>
    cases h
    exact ⟨rest, hdecode⟩
  next => cases h

end place

/-! ### The obligations -/

/-- Settles O6: Decode moved PC over the operand bytes of the Instruction it answers, one fewer than its length. -/
theorem decodedLengthIsTheBytesConsumed : Obligations.DecodedLengthIsTheBytesConsumed := by
  intro byte origin s t i h
  obtain ⟨op, n, hlen, rfl, rfl⟩ := decodeAt_eq_ok h
  have hmax := lengthOf_le_three (opcodeOf op)
  refine ⟨?_, fun hpc => ?_, mkInstruction_wf origin op, rfl, rfl⟩
  · have hmoved : (s.pc + BitVec.ofNat 16 n - s.pc).toNat = n := by
      rw [BitVec.add_comm, BitVec.add_sub_cancel]
      exact Nat.mod_eq_of_lt (by omega)
    rw [mkInstruction_length, hlen, hmoved, Nat.add_comm]
  · rw [mkInstruction_length, hlen, hpc]
    exact add_one_add_ofNat origin n

/-- Settles O28: the state after is the instruction's effect, which writes its destinations only. -/
theorem executeChangesOnlyTheDestinations : Obligations.ExecuteChangesOnlyTheDestinations := by
  intro i s t h
  obtain ⟨-, rfl⟩ := exec_eq_next_iff.1 h
  exact ⟨fun r => effect_read8 i s, effect_sp i s, effect_pc i s, effect_bm i s, effect_fault i s,
    effect_boot i s, (effect_sameImage i s).memRead_eq⟩

/-- Settles O32: the Instruction answered is the record of the one that stands at PC, and its effect leaves PC. -/
theorem controlFlowIsSequential : Obligations.ControlFlowIsSequential := by
  intro s t i h
  obtain ⟨op, hs, hbytes, rfl, rfl⟩ := stepReply_eq_ok h
  exact ⟨mkInstruction_wf s.pc op, rfl, effect_pc op _, lengthOf_eq_one_or_three (opcodeOf op), hbytes,
    (effect_fault op _).trans hs⟩

/-- Settles O33: the two outcomes of a running block's Step, each in both views. -/
theorem stepOutcomeAgreesWithStepReply : Obligations.StepOutcomeAgreesWithStepReply := by
  refine fun s => ⟨fun e he => ⟨step_latched he, stepReply_latched he⟩, fun hs => ?_⟩
  rcases step_cases hs with ⟨i, -, hreply, hstep⟩ | ⟨n, e, -, hreply, hstep⟩ <;> rw [hreply, hstep]
  · exact ⟨rfl, .inl ⟨_, rfl, (effect_fault i _).trans hs⟩⟩
  · exact ⟨rfl, .inr ⟨e, rfl, rfl⟩⟩

/-- Settles O37: each operation by its lemma for a latched block. -/
theorem faultLatchIsSticky : Obligations.FaultLatchIsSticky := fun _ _ he =>
  ⟨fetch_latched he, fun _ _ => decodeAt_latched he, fun i => execute_latched i he, stepReply_latched he,
    fun i => exec_latched i he, step_latched he, interact_latched he⟩

/-- Settles O40: the placed block runs, and the bytes at its PC are those of the word. -/
theorem placedWordIsTheNextInstruction : Obligations.PlacedWordIsTheNextInstruction := by
  intro s nbits w i hwf hword
  obtain ⟨rest, hdecode⟩ := decode_of_decodeTableWord hword
  rw [← readableBytes_withFetchWord hwf] at hdecode
  exact (standsAt_of_decode hdecode).step_eq rfl

/-- Settles O27: the effect of an instruction changes neither the latch nor PC. -/
theorem everyInstructionCompletesWhenRunning : Obligations.EveryInstructionCompletesWhenRunning :=
  fun i s hs => ⟨effect i s, exec_running i hs, (effect_fault i s).trans hs, effect_pc i s⟩

/-- Settles O29: Execute dispatches on `op`. -/
theorem executeReadsOnlyTheBoundBehaviour : Obligations.ExecuteReadsOnlyTheBoundBehaviour := by
  intro i j s hop
  rw [execute, execute, hop]

/-- Settles O30: the three cases of Fetch; one more modulo 2^16 is the sum of words. -/
theorem fetchReadsThenAdvances : Obligations.FetchReadsThenAdvances := by
  refine fun s => ⟨fun byte hs hb => ?_, fun e => fetch_err, fun e => fetch_latched⟩
  rw [fetch_ok hs hb, BitVec.ofNat_add, BitVec.ofNat_toNat, BitVec.setWidth_eq]
  rfl

/-- Settles O31: the bytes that decode are those of the instruction that stands at PC. -/
theorem stepExecutesTheInstructionAtPc : Obligations.StepExecutesTheInstructionAtPc :=
  fun _ _ _ hs hdecode => (standsAt_of_decode hdecode).step_eq hs

end Sys2Proof.Machine
end

section
/-! The 16-bit immediate loads (`41_load_imm16.md`): where an instruction with an immediate stands, which error a Step
raises, and the obligations about `LD SP` and `LD HL`. -/

namespace Sys2Proof.Machine

/-! ### The instruction at PC -/

/-- An instruction with an immediate stands where its opcode byte, the low byte and the high byte can be read (R50,
R51). -/
theorem standsAt_of_imm16 {i : Instr} {a : Word} {s : State} {lo hi : Byte}
    (himm : imm16Of i = some (joinBytes hi lo)) (hop : memRead a s = .ok (opcodeByte (opcodeOf i)))
    (hlo : memRead (a + 1) s = .ok lo) (hhi : memRead (a + 2) s = .ok hi) : StandsAt i a s := by
  have hencode : encode i = [opcodeByte (opcodeOf i), lo, hi] := by simp [encode, encodeOperands, himm]
  have hhi' : memRead (a + 1 + 1) s = .ok hi := by rw [BitVec.add_assoc]; exact hhi
  rw [StandsAt, ← length_encode, hencode]
  change readableBytes 3 a s = _
  rw [readableBytes_succ_ok hop, readableBytes_succ_ok hlo, readableBytes_succ_ok hhi', readableBytes]

/-! ### The error of a Step -/

/-- The errors of a Bus read: the band that the map leaves out, and the regions without a store (R29, R36). -/
theorem memRead_err_iff {a : Word} {s : State} {e : Error} :
    memRead a s = .err e ↔
      (e = .invalidBootstrapAccess a ∧ s.bm = true ∧ 0x0100 ≤ a.toNat ∧ a.toNat ≤ 0x3FFF) ∨
        ∃ r, e = .unimplementedRegion r ∧ classify a s.bm = .ok r ∧ ∀ off, r ≠ .bootstrap off := by
  constructor
  · intro h
    rcases classify_ok_or_err a s.bm with ⟨r, hr⟩ | ⟨he, hband⟩
    · have hother : ∀ off, r ≠ .bootstrap off := by
        rintro off rfl
        cases h.symm.trans (memRead_of_bootstrap hr)
      exact .inr ⟨r, Answer.err.inj (h.symm.trans (memRead_of_other hr hother)), hr, hother⟩
    · exact .inl ⟨Answer.err.inj (h.symm.trans (memRead_of_err he)), hband⟩
  · rintro (⟨rfl, hbm, hlo, hhi⟩ | ⟨r, rfl, hr, hother⟩)
    · exact memRead_of_err (hbm ▸ classify_past_window hlo hhi)
    · exact memRead_of_other hr hother

section stops
variable {s : State} {n m : Nat} {e e' : Error}

/-- A Step whose opcode check fails attempts no operand Fetch (R54). -/
theorem no_operandFetch_of_unimplemented {byte : Byte} (hb : memRead s.pc s = .ok byte)
    (hnone : opcodeOfByte byte = none) (hn : 0 < n) :
    ¬ (n = 0 ∨ ∃ byte o, memRead s.pc s = .ok byte ∧ opcodeOfByte byte = some o ∧ formatOf o = .opD16) := by
  rintro (rfl | ⟨byte', o, hb', ho, -⟩)
  · exact absurd hn (lt_irrefl 0)
  · obtain rfl := Answer.ok.inj (hb.symm.trans hb')
    cases hnone.symm.trans ho

/-- A Step that one error stops after `n` Fetches has not gone on to be stopped by another. -/
theorem StopsBeforeExecute.le (h : StopsBeforeExecute s n e) (h' : StopsBeforeExecute s m e') : m ≤ n := by
  obtain ⟨-, -, hwhy⟩ := h
  obtain ⟨-, hread', hwhy'⟩ := h'
  by_contra hlt
  rcases hwhy with ⟨herr, -⟩ | ⟨rfl, byte, hb, hnone, -⟩
  · obtain ⟨v, hv⟩ := hread' n (by omega)
    cases herr.symm.trans hv
  · rcases hwhy' with ⟨-, hfetch⟩ | ⟨rfl, -⟩
    · exact no_operandFetch_of_unimplemented hb hnone (by omega) hfetch
    · exact hlt (le_refl 1)

/-- The state determines where a Step stops before Execute, and with which error (R87). -/
theorem StopsBeforeExecute.unique (h : StopsBeforeExecute s n e) (h' : StopsBeforeExecute s m e') :
    n = m ∧ e = e' := by
  obtain rfl : n = m := le_antisymm (h'.le h) (h.le h')
  obtain ⟨-, -, ⟨herr, hfetch⟩ | ⟨hn, byte, hb, hnone, rfl⟩⟩ := h <;>
    obtain ⟨-, -, ⟨herr', hfetch'⟩ | ⟨hn', byte', hb', hnone', rfl⟩⟩ := h'
  · exact ⟨rfl, Answer.err.inj (herr.symm.trans herr')⟩
  · exact absurd hfetch (no_operandFetch_of_unimplemented hb' hnone' (by omega))
  · exact absurd hfetch' (no_operandFetch_of_unimplemented hb hnone (by omega))
  · exact ⟨rfl, by rw [Answer.ok.inj (hb.symm.trans hb')]⟩

/-- What stops a Step before Execute is what the Step raises (R84). -/
theorem StopsBeforeExecute.stepReply_eq (h : StopsBeforeExecute s n e) (hs : s.Running) :
    stepReply s = ⟨.err e, { s with pc := s.pc + BitVec.ofNat 16 n, fault := some e }⟩ := by
  rcases step_cases hs with ⟨i, hi, -⟩ | ⟨m, e', hstop, heq, -⟩
  · exact absurd h (StandsAt.not_stopsBeforeExecute hi n e)
  · obtain ⟨rfl, rfl⟩ := h.unique hstop
    exact heq

end stops

/-- Where an operand byte of an instruction with an immediate cannot be read, after what precedes it could be, the Step
raises the error of that read and moves PC and the latch only (R65, R84). -/
theorem stepReply_of_unreadable_operand {s : State} {o : Opcode} {a : Word} (hs : s.Running)
    (hop : memRead s.pc s = .ok (opcodeByte o)) (hfmt : formatOf o = .opD16)
    (ha : a = s.pc + 1 ∨ (a = s.pc + 2 ∧ ∃ lo, memRead (s.pc + 1) s = .ok lo))
    (hbad : ∀ byte, memRead a s ≠ .ok byte) :
    ∃ n e, memRead a s = .err e ∧
      stepReply s = ⟨.err e, { s with pc := s.pc + BitVec.ofNat 16 n, fault := some e }⟩ := by
  obtain ⟨e, he⟩ : ∃ e, memRead a s = .err e :=
    (memRead_ok_or_err a s).resolve_left fun ⟨byte, hb⟩ => hbad byte hb
  have hzero : memRead (s.pc + BitVec.ofNat 16 0) s = .ok (opcodeByte o) := by simpa using hop
  have hfetch : ∃ byte o, memRead s.pc s = .ok byte ∧ opcodeOfByte byte = some o ∧ formatOf o = .opD16 :=
    ⟨_, o, hop, opcodeOfByte_opcodeByte o, hfmt⟩
  rcases ha with rfl | ⟨rfl, lo, hlo⟩
  · have hstop : StopsBeforeExecute s 1 e := by
      refine ⟨by omega, fun k hk => ?_, .inl ⟨he, .inr hfetch⟩⟩
      obtain rfl : k = 0 := by omega
      exact ⟨_, hzero⟩
    exact ⟨1, e, he, hstop.stepReply_eq hs⟩
  · have hstop : StopsBeforeExecute s 2 e := by
      refine ⟨le_refl 2, fun k hk => ?_, .inl ⟨he, .inr hfetch⟩⟩
      obtain rfl | rfl : k = 0 ∨ k = 1 := by omega
      · exact ⟨_, hzero⟩
      · exact ⟨lo, hlo⟩
    exact ⟨2, e, he, hstop.stepReply_eq hs⟩

/-! ### The obligations -/

/-- Settles O24: Execute by its effect, the record by the instruction that stands at PC, and the errors by the operand
read that fails. -/
theorem ldSpD16LoadsSp : Obligations.LdSpD16LoadsSp := by
  refine ⟨fun imm16 s hs => exec_running (.ldSpD16 imm16) hs, fun s lo hi hs hop hlo hhi => ?_,
    fun s a hs hop ha hbad => ?_⟩
  · have hat : StandsAt (.ldSpD16 (joinBytes hi lo)) s.pc s := standsAt_of_imm16 rfl hop hlo hhi
    exact hat.fetchDecode_eq hs
  · obtain ⟨n, e, he, hstep⟩ := stepReply_of_unreadable_operand (o := .ldSpD16) hs hop rfl ha hbad
    exact ⟨e, _, hstep, rfl, memRead_err_iff.1 he⟩

/-- Settles O25 as O24 is settled; the effect is `write16(HL, imm16)`, which HL reads back. -/
theorem ldHlD16LoadsHl : Obligations.LdHlD16LoadsHl := by
  refine ⟨fun imm16 s hs => ?_, fun s lo hi hs hop hlo hhi => ?_, fun s a hs hop ha hbad => ?_⟩
  · have hexec := exec_running (.ldHlD16 imm16) hs
    exact ⟨hexec, hexec, read16_write16 s .hl imm16⟩
  · have hat : StandsAt (.ldHlD16 (joinBytes hi lo)) s.pc s := standsAt_of_imm16 rfl hop hlo hhi
    exact hat.fetchDecode_eq hs
  · obtain ⟨n, e, he, hstep⟩ := stepReply_of_unreadable_operand (o := .ldHlD16) hs hop rfl ha hbad
    exact ⟨e, _, hstep, rfl, rfl, memRead_err_iff.1 he⟩

end Sys2Proof.Machine
end

section
/-! Logic (`42_logic.md`): the bits of F after `set_flags`, where `XOR A` stands, and the obligations about them. -/

namespace Sys2Proof.Machine

/-! ### The flag update -/

/-- The only bit of F that `set_flags` can set is Zero, bit 7, and it sets it for the result zero (R74). -/
theorem getLsbD_setFlags (s : State) (result : Byte) (k : Nat) :
    (s.setFlags result).f.getLsbD k = (decide (result = 0) && decide (k = 7)) := by
  rw [setFlags_eq]
  dsimp only
  split
  next hzero =>
    change (BitVec.twoPow 8 7).getLsbD k = _
    simp [hzero, BitVec.getLsbD_twoPow, eq_comm]
  next hne =>
    rw [decide_eq_false hne, Bool.false_and]
    exact BitVec.getLsbD_zero

/-! ### The instruction at PC -/

/-- `XOR A` stands where its one byte can be read (R75). -/
theorem standsAt_xorA {a : Word} {s : State} (h : memRead a s = .ok 0xAF) : StandsAt .xorA a s :=
  readableBytes_succ_ok h

/-- The Step of a running block completes the instruction that stands at PC, its effect past its bytes (R68). -/
theorem StandsAt.stepReply_eq {i : Instr} {s : State} (h : StandsAt i s.pc s) (hs : s.Running) :
    stepReply s = ⟨.ok (mkInstruction s.pc i),
      effect i { s with pc := s.pc + BitVec.ofNat 16 (lengthOf (opcodeOf i)) }⟩ := by
  rcases step_cases hs with ⟨j, hj, heq, -⟩ | ⟨n, e, hstop, -⟩
  · obtain rfl : i = j := h.unique hj
    exact heq
  · exact absurd hstop (h.not_stopsBeforeExecute n e)

/-! ### The obligations -/

/-- Settles O13: `set_flags` as a record update, and F bit by bit. -/
theorem setFlagsWritesZeroAndClearsTheRest : Obligations.SetFlagsWritesZeroAndClearsTheRest := by
  refine fun s result => ⟨setFlags_eq s result, ?_, fun k hk => ?_⟩
  · rw [State.zeroFlag, getLsbD_setFlags]
    simp
  · rw [getLsbD_setFlags, decide_eq_false hk.ne, Bool.and_false]

/-- Settles O26: Execute by the instruction's effect, Decode by its rule for the byte `AF`, which fetches nothing, and
the Step by the instruction that stands at PC. -/
theorem xorAClearsAAndSetsZero : Obligations.XorAClearsAAndSetsZero := by
  refine ⟨fun s hs => exec_running .xorA hs, fun s origin hs => ?_, fun s hs hbyte => ?_⟩
  · exact decodeAt_xorA hs (opcodeOfByte_opcodeByte .xorA)
  · exact ⟨_, (standsAt_xorA hbyte).stepReply_eq hs⟩

end Sys2Proof.Machine
end

section
/-! Errors (`60_exceptions.md`): which errors a Bus read, a Step and an interaction of the host can raise (R77 to R82),
what the latch can hold in a run (R84), and the obligations about them. -/

namespace Sys2Proof.Machine

/-! ### What a running block can raise -/

/-- The errors of a built block: those of Fetch and the one of Decode (R77, R78, R80). -/
def Error.FetchOrDecode (e : Error) : Prop :=
  (∃ a, e = .invalidBootstrapAccess a) ∨ (∃ r, e = .unimplementedRegion r) ∨ ∃ byte a, e = .unimplementedOpcode byte a

/-- An operation that answered `Ok` or raised an error of Fetch or Decode. -/
def Reply.OkOrFetchOrDecode {α : Type} (r : Reply α) : Prop :=
  (∃ v, r.answer = .ok v) ∨ ∃ e, r.answer = .err e ∧ e.FetchOrDecode

theorem memRead_err_fetchOrDecode {a : Word} {s : State} {e : Error} (h : memRead a s = .err e) :
    e.FetchOrDecode := by
  rcases memRead_err_iff.1 h with ⟨he, -⟩ | ⟨r, he, -⟩
  · exact .inl ⟨a, he⟩
  · exact .inr (.inl ⟨r, he⟩)

/-- A Bus read does not look at the opcode map (R80). -/
theorem memRead_ne_unimplementedOpcode (a : Word) (s : State) (byte : Byte) (origin : Word) :
    memRead a s ≠ .err (.unimplementedOpcode byte origin) := by
  intro h
  rcases memRead_err_iff.1 h with ⟨he, -⟩ | ⟨r, he, -⟩ <;> cases he

theorem classify_okOrFetchOrDecode (a : Word) (bm : Bool) (s : State) :
    (Reply.mk (classify a bm) s).OkOrFetchOrDecode := by
  rcases classify_ok_or_err a bm with hok | ⟨herr, -⟩
  · exact .inl hok
  · exact .inr ⟨_, herr, .inl ⟨a, rfl⟩⟩

theorem StopsBeforeExecute.fetchOrDecode {s : State} {n : Nat} {e : Error} (h : StopsBeforeExecute s n e) :
    e.FetchOrDecode := by
  obtain ⟨-, -, ⟨herr, -⟩ | ⟨-, byte, -, -, he⟩⟩ := h
  · exact memRead_err_fetchOrDecode herr
  · exact .inr (.inr ⟨byte, s.pc, he⟩)

/-- Showing a value to the host raises nothing. -/
theorem Reply.OkOrFetchOrDecode.respond {α : Type} {r : Reply α} (h : r.OkOrFetchOrDecode) (k : α → Response) :
    (r.respond k).OkOrFetchOrDecode := by
  obtain ⟨answer, s⟩ := r
  rcases h with ⟨v, rfl⟩ | ⟨e, rfl, he⟩
  · exact .inl ⟨k v, rfl⟩
  · exact .inr ⟨e, rfl, he⟩

section running
variable {s : State} (hs : s.Running)
include hs

theorem fetch_okOrFetchOrDecode : (fetch s).OkOrFetchOrDecode := by
  rcases memRead_ok_or_err s.pc s with ⟨byte, hb⟩ | ⟨e, he⟩
  · rw [fetch_ok hs hb]; exact .inl ⟨byte, rfl⟩
  · rw [fetch_err hs he]; exact .inr ⟨e, rfl, memRead_err_fetchOrDecode he⟩

theorem decodeAt_okOrFetchOrDecode (byte : Byte) (origin : Word) : (decodeAt byte origin s).OkOrFetchOrDecode := by
  rcases decodeAt_cases byte origin hs with ⟨i, n, -, -, -, h⟩ | ⟨n, e, -, -, hwhy, h⟩ <;> rw [h]
  · exact .inl ⟨_, rfl⟩
  · refine .inr ⟨e, rfl, ?_⟩
    rcases hwhy with ⟨o, -, -, herr⟩ | ⟨-, -, he⟩
    · exact memRead_err_fetchOrDecode herr
    · exact .inr (.inr ⟨byte, origin, he⟩)

theorem stepReply_okOrFetchOrDecode : (stepReply s).OkOrFetchOrDecode := by
  rcases step_cases hs with ⟨i, -, h, -⟩ | ⟨n, e, hstop, h, -⟩ <;> rw [h]
  · exact .inl ⟨_, rfl⟩
  · exact .inr ⟨e, rfl, hstop.fetchOrDecode⟩

theorem interact_okOrFetchOrDecode (x : Interaction) : (interact x s).OkOrFetchOrDecode := by
  cases x with
  | step => exact (stepReply_okOrFetchOrDecode hs).respond _
  | fetch => exact (fetch_okOrFetchOrDecode hs).respond _
  | decode byte origin => exact (decodeAt_okOrFetchOrDecode hs byte origin).respond _
  | execute i => rw [interact, execute_running i hs]; exact .inl ⟨.done, rfl⟩
  | classify a bm => exact (classify_okOrFetchOrDecode a bm s).respond _
  | read8 _ | read16 _ | write8 _ _ | write16 _ _ => exact .inl ⟨_, rfl⟩

/-- Decode's own error is that of a byte outside the map; its operand Fetches raise others (R80). -/
theorem decodeAt_unimplementedOpcode_iff {byte : Byte} {origin : Word} :
    (decodeAt byte origin s).answer = .err (.unimplementedOpcode byte origin) ↔ opcodeOfByte byte = none := by
  constructor
  · intro hanswer
    rcases decodeAt_cases byte origin hs with
      ⟨i, n, -, -, -, h⟩ | ⟨n, e, -, -, ⟨o, -, -, herr⟩ | ⟨-, hnone, -⟩, h⟩
    · rw [h] at hanswer; cases hanswer
    · rw [h] at hanswer; cases hanswer
      exact absurd herr (memRead_ne_unimplementedOpcode _ s byte origin)
    · exact hnone
  · intro hnone
    rw [decodeAt_unimplemented hs hnone]

/-! ### The error of a Step, stage by stage -/

theorem stepReply_of_unreadable_opcode {e : Error} (h : memRead s.pc s = .err e) :
    stepReply s = ⟨.err e, { s with fault := some e }⟩ := by
  have hstop : StopsBeforeExecute s 0 e :=
    ⟨Nat.zero_le 2, fun k hk => absurd hk k.not_lt_zero, .inl ⟨by simpa using h, .inl rfl⟩⟩
  simpa using hstop.stepReply_eq hs

theorem stepReply_of_unimplemented_opcode {byte : Byte} (hb : memRead s.pc s = .ok byte)
    (hnone : opcodeOfByte byte = none) :
    stepReply s = ⟨.err (.unimplementedOpcode byte s.pc),
      { s with pc := s.pc + 1, fault := some (.unimplementedOpcode byte s.pc) }⟩ := by
  have hstop : StopsBeforeExecute s 1 (.unimplementedOpcode byte s.pc) := by
    refine ⟨by omega, fun k hk => ?_, .inr ⟨rfl, byte, hb, hnone, rfl⟩⟩
    obtain rfl : k = 0 := by omega
    exact ⟨byte, by simpa using hb⟩
  exact hstop.stepReply_eq hs

/-- The operand stages: the bytes 0x31 and 0x21 are those of the opcodes with an immediate. -/
theorem stepReply_answer_of_operand_err {byte : Byte} {a : Word} {e : Error} (hb : memRead s.pc s = .ok byte)
    (hbyte : byte = 0x31 ∨ byte = 0x21)
    (ha : a = s.pc + 1 ∨ (a = s.pc + 2 ∧ ∃ lo, memRead (s.pc + 1) s = .ok lo)) (he : memRead a s = .err e) :
    (stepReply s).answer = .err e := by
  obtain ⟨o, rfl, hfmt⟩ : ∃ o, byte = opcodeByte o ∧ formatOf o = .opD16 := by
    rcases hbyte with rfl | rfl
    · exact ⟨.ldSpD16, rfl, rfl⟩
    · exact ⟨.ldHlD16, rfl, rfl⟩
  have hbad : ∀ v, memRead a s ≠ .ok v := fun v hv => by cases he.symm.trans hv
  obtain ⟨n, e', he', hstep⟩ := stepReply_of_unreadable_operand hs hb hfmt ha hbad
  rw [hstep, Answer.err.inj (he.symm.trans he')]

end running

/-! ### What the latch holds in a run -/

section latch
variable {s : State}

theorem latchSound_of_running (hs : s.Running) : s.LatchSound := by
  rw [State.LatchSound, hs]
  trivial

/-- A Fetch that raised leaves PC where it read. PC has not passed the window's end, so a mapped block read at 0x0100,
and an unmapped one in bank zero (R77, R78). -/
theorem latchSound_of_memRead_err {e : Error} (hpc : s.pc.toNat ≤ 0x0100) (hlatch : s.fault = some e)
    (herr : memRead s.pc s = .err e) : s.LatchSound := by
  rw [State.LatchSound, hlatch]
  rcases memRead_cases s.pc s with ⟨-, -, h⟩ | ⟨hbm, hlo, -, h⟩ | ⟨hbm, -, h⟩ | ⟨hlo, -⟩
  · cases herr.symm.trans h
  · cases herr.symm.trans h
    have hend : s.pc = 0x0100 := BitVec.eq_of_toNat_eq (le_antisymm hpc hlo)
    exact ⟨hbm, hend, hend⟩
  · cases herr.symm.trans h
    exact ⟨hbm, rfl⟩
  · omega

/-- What stops a Step before Execute is an error that the latch may hold, with PC where R84 says. -/
theorem StopsBeforeExecute.latchSound {n : Nat} {e : Error} (h : StopsBeforeExecute s n e)
    (hpc : (s.pc + BitVec.ofNat 16 n).toNat ≤ 0x0100) :
    State.LatchSound { s with pc := s.pc + BitVec.ofNat 16 n, fault := some e } := by
  obtain ⟨-, -, ⟨herr, -⟩ | ⟨rfl, byte, hb, hnone, rfl⟩⟩ := h
  · exact latchSound_of_memRead_err hpc rfl herr
  · obtain ⟨hbm, hwin, hread⟩ := memRead_ok_iff.1 hb
    exact ⟨hbm, rfl, hwin, hread.symm, hnone⟩

theorem step_runInv {t : State} (hs : s.RunInv) (h : step s = .next t) : t.RunInv := by
  cases hf : s.fault with
  | some e => cases h.symm.trans (step_latched hf)
  | none =>
    have hinv := stepReply_inv hs.inv
    rcases step_cases hf with ⟨i, -, hreply, hstep⟩ | ⟨n, e, hstop, hreply, hstep⟩ <;> rw [hreply] at hinv <;>
      cases h.symm.trans hstep
    · exact ⟨hinv, latchSound_of_running ((effect_fault i _).trans hf)⟩
    · exact ⟨hinv, hstop.latchSound hinv.pcInWindow⟩

end latch

/-! ### Construction -/

/-- The one error of construction is that of an image of the wrong size (R82). -/
theorem build_err_iff {image : List Byte} {bm0 : Bool} {w : Draws} {e : Error} :
    build image bm0 w = .err e ↔
      image.length ≠ Config.bootSize ∧ .bootstrapLoadError Config.bootSize image.length = e := by
  unfold build
  split <;> simp [*]

/-! ### The obligations -/

/-- Settles O44: a Step that completes leaves the latch empty, and one that raises was stopped before Execute. -/
theorem everyStepKeepsTheRunInvariant : Obligations.EveryStepKeepsTheRunInvariant :=
  fun _ _ => step_runInv

/-- Settles O4: Decode raises this error for the bytes outside the map only. -/
theorem decodeReportsEveryUnimplementedOpcode : Obligations.DecodeReportsEveryUnimplementedOpcode :=
  fun _ _ _ hs => (decodeAt_unimplementedOpcode_iff hs).trans opcodeOfByte_eq_none_iff

/-- Settles O35: each stage of the Step by its lemma. -/
theorem stepRaisesTheFirstErrorInOrder : Obligations.StepRaisesTheFirstErrorInOrder := by
  refine fun s e byte hs => ⟨fun he => ?_, fun hb hnone => ?_, fun hb hbyte he => ?_, fun hb hbyte hlo he => ?_⟩
  · rw [stepReply_of_unreadable_opcode hs he]
  · rw [stepReply_of_unimplemented_opcode hs hb hnone]
  · exact stepReply_answer_of_operand_err hs hb hbyte (.inl rfl) he
  · exact stepReply_answer_of_operand_err hs hb hbyte (.inr ⟨rfl, hlo⟩) he

/-- Settles O36: a Step that raises was stopped before Execute, after the Fetches that succeeded. -/
theorem raisingStepMovesOnlyPcAndLatch : Obligations.RaisingStepMovesOnlyPcAndLatch := by
  intro s t e hs h
  rcases step_cases hs with ⟨i, -, hreply, -⟩ | ⟨n, e', ⟨hn, hread, hwhy⟩, hreply, -⟩ <;>
    cases h.symm.trans hreply
  refine ⟨n, hn, rfl, hread, ?_⟩
  rcases hwhy with ⟨herr, -⟩ | ⟨hone, byte, hb, -, he⟩
  · exact .inl herr
  · exact .inr ⟨hone, byte, hb, he⟩

/-- Settles O38: every interaction answers `Ok` or an error of Fetch or Decode. -/
theorem hostSeesOnlyFetchAndDecodeErrors : Obligations.HostSeesOnlyFetchAndDecodeErrors := by
  intro x s hs
  rcases interact_okOrFetchOrDecode hs x with hok | ⟨e, he, ⟨a, rfl⟩ | ⟨r, rfl⟩ | ⟨byte, a, rfl⟩⟩
  · exact .inl hok
  · exact .inr (.inl ⟨a, he⟩)
  · exact .inr (.inr (.inl ⟨r, he⟩))
  · exact .inr (.inr (.inr ⟨byte, a, he⟩))

/-- Settles O21: the build answers this error for a wrong size only, and a block for the right size only. -/
theorem wrongImageSizeBuildsNoBlock : Obligations.WrongImageSizeBuildsNoBlock := by
  refine fun image bm0 w => ⟨build_err_iff.trans (and_iff_left rfl), fun hne s hok => ?_⟩
  obtain ⟨hlen, -⟩ := build_ok_iff.1 hok
  exact hne hlen

/-- Settles O46: the first opcode Fetch reads bank zero, which has no store. -/
theorem unmappedBlockRaisesAtItsFirstStep : Obligations.UnmappedBlockRaisesAtItsFirstStep := by
  intro image w s hbuild
  obtain ⟨-, rfl⟩ := build_ok_iff.1 hbuild
  have hbank : classify Config.resetPc false = .ok (.cartridgeBankZero Config.resetPc) :=
    classify_bank_zero (Nat.zero_le _)
  exact stepReply_of_unreadable_opcode rfl (memRead_of_other hbank (by simp))

end Sys2Proof.Machine
end

section
/-! Reset and the host (`70_reset_and_hazards.md`): what a build answers (R93, R95), what steers the Engine (R95), what
the host may change (R97), how long a run can be (R98), and the obligations about them. -/

namespace Sys2Proof.Machine

/-! ### Construction -/

/-- Bytes that read as unlisted ones are not listed. -/
theorem Memory.ofBytes_replicate_unlistedByte (n off : Nat) :
    Memory.ofBytes off (List.replicate n Config.unlistedByte) = [] := by
  induction n generalizing off with
  | zero => rfl
  | succ n ih => rw [List.replicate_succ, Memory.ofBytes, if_pos rfl, ih]

theorem build_running {image : List Byte} {bm0 : Bool} {w : Draws} {s : State} (h : build image bm0 w = .ok s) :
    s.Running := by
  obtain ⟨-, rfl⟩ := build_ok_iff.1 h
  rfl

theorem build_runInv {image : List Byte} {bm0 : Bool} {w : Draws} {s : State} (h : build image bm0 w = .ok s) :
    s.RunInv :=
  ⟨build_inv h, latchSound_of_running (build_running h)⟩

theorem build_unlisted_eq_reset :
    build (List.replicate Config.bootSize Config.unlistedByte) true resetDraws = .ok State.reset := by
  refine build_ok_iff.2 ⟨List.length_replicate, ?_⟩
  rw [resetState, Memory.ofImage, Memory.ofBytes_replicate_unlistedByte]
  rfl

/-! ### What steers the Engine -/

section sameControl
variable {s t : State} (h : s.SameControl t)
include h

theorem State.SameControl.memRead_eq (a : Word) : memRead a s = memRead a t := by
  obtain ⟨-, hbm, hboot, -⟩ := h
  exact memRead_congr hbm hboot a

theorem State.SameControl.standsAt {i : Instr} (hi : StandsAt i s.pc s) : StandsAt i t.pc t := by
  obtain ⟨hpc, hbm, hboot, -⟩ := h
  rwa [StandsAt, ← hpc, ← readableBytes_congr hbm hboot]

theorem State.SameControl.stopsBeforeExecute {n : Nat} {e : Error} (hstop : StopsBeforeExecute s n e) :
    StopsBeforeExecute t n e := by
  have ⟨hpc, _⟩ := h
  simpa only [StopsBeforeExecute, h.memRead_eq, hpc] using hstop

/-- A Step answers by PC, the boot-mapped bit, the store and the latch alone, and keeps the agreement on them: Fetch and
Decode read nothing else, and the effect of an instruction changes none of the four (R95). -/
theorem State.SameControl.stepReply_agrees :
    (stepReply s).answer = (stepReply t).answer ∧ (stepReply s).state.SameControl (stepReply t).state := by
  have ⟨hpc, hbm, hboot, hfault⟩ := h
  cases hs : s.fault with
  | some e =>
    rw [stepReply_latched hs, stepReply_latched (hfault.symm.trans hs)]
    exact ⟨rfl, h⟩
  | none =>
    have ht : t.Running := hfault.symm.trans hs
    rcases step_cases hs with ⟨i, hi, heq, -⟩ | ⟨n, e, hstop, heq, -⟩
    · rw [heq, (h.standsAt hi).stepReply_eq ht, hpc]
      refine ⟨rfl, ?_⟩
      simp [State.SameControl, hbm, hboot, hfault]
    · rw [heq, (h.stopsBeforeExecute hstop).stepReply_eq ht, hpc]
      exact ⟨rfl, rfl, hbm, hboot, rfl⟩

end sameControl

/-! ### The host's rights -/

theorem execute_pc (i : Instruction) (s : State) : (execute i s).state.pc = s.pc := by
  cases hf : s.fault with
  | some e => rw [execute_latched i hf]
  | none => rw [execute_running i hf]; exact effect_pc i.op s

/-- Only the interactions that fetch move PC (R97). -/
theorem interact_pc {x : Interaction} (s : State) (hstep : x ≠ .step) (hfetch : x ≠ .fetch)
    (hdecode : ∀ byte origin, x ≠ .decode byte origin) : (interact x s).state.pc = s.pc := by
  cases x with
  | step => exact absurd rfl hstep
  | fetch => exact absurd rfl hfetch
  | decode byte origin => exact absurd rfl (hdecode byte origin)
  | execute i => rw [interact, respond_state]; exact execute_pc i s
  | classify a bm => rw [interact, respond_state]
  | read8 _ | read16 _ => rfl
  | write8 r v => exact write8_pc s r v
  | write16 p v => exact write16_pc s p v

/-! ### The length of a run -/

/-- A completed Step leaves PC at a larger address that is still not past the window's end; every other Step of a
running block raises (R68, R98). -/
theorem step_advances_or_raises {s : State} (hinv : s.Inv) (hs : s.Running) :
    (∃ t, step s = .next t ∧ t.Inv ∧ t.Running ∧ s.pc.toNat < t.pc.toNat) ∨
      ∃ u e, step s = .next u ∧ u.fault = some e := by
  have hinv' := stepReply_inv hinv
  rcases step_cases hs with ⟨i, -, hreply, hstep⟩ | ⟨n, e, -, -, hstep⟩
  · rw [hreply] at hinv'
    refine .inl ⟨_, hstep, hinv', (effect_fault i _).trans hs, ?_⟩
    have hpc := hinv.pcInWindow
    rw [effect_pc]
    rcases lengthOf_eq_one_or_three (opcodeOf i) with hlen | hlen <;> rw [hlen] <;> bv_omega
  · exact .inr ⟨_, e, hstep, rfl⟩

/-- A run of `k` Steps that complete, then one that raises, then only the fault that names its error (R98). -/
def State.RaisesAfter (s : State) (k : Nat) : Prop :=
  ∃ (t u : State) (e : Error), Host.Core.run Sys2Proof.core k s = .next t ∧ t.Running ∧ step t = .next u ∧
    u.fault = some e ∧ step u = .fault (.latched e)

theorem State.raisesAfter_zero {s u : State} {e : Error} (hs : s.Running) (hstep : step s = .next u)
    (hu : u.fault = some e) : s.RaisesAfter 0 :=
  ⟨s, u, e, rfl, hs, hstep, hu, step_latched hu⟩

/-- A run that begins with a completed step goes on from the state after it. -/
theorem run_succ_of_step_eq_next {M : Host.Core} {s t : M.State} (hstep : M.step s = .next t) (k : Nat) :
    M.run (k + 1) s = M.run k t := by
  rw [Host.Core.run, hstep]

theorem State.RaisesAfter.succ {s t : State} {k : Nat} (ht : t.RaisesAfter k) (hstep : step s = .next t) :
    s.RaisesAfter (k + 1) := by
  rwa [State.RaisesAfter, run_succ_of_step_eq_next (M := Sys2Proof.core) hstep]

/-- The bytes left up to the window's end bound the Steps that can complete. -/
theorem raisesAfter_of_inv {n : Nat} {s : State} (hinv : s.Inv) (hs : s.Running) (hroom : 0x0100 ≤ s.pc.toNat + n) :
    ∃ k ≤ n, s.RaisesAfter k := by
  induction n generalizing s with
  | zero =>
    rcases step_advances_or_raises hinv hs with ⟨t, -, htinv, -, hpc⟩ | ⟨u, e, hstep, hu⟩
    · have := htinv.pcInWindow
      omega
    · exact ⟨0, le_refl 0, State.raisesAfter_zero hs hstep hu⟩
  | succ n ih =>
    rcases step_advances_or_raises hinv hs with ⟨t, hstep, htinv, ht, hpc⟩ | ⟨u, e, hstep, hu⟩
    · obtain ⟨k, hk, hraises⟩ := ih htinv ht (by omega)
      exact ⟨k + 1, Nat.succ_le_succ hk, hraises.succ hstep⟩
    · exact ⟨0, Nat.zero_le _, State.raisesAfter_zero hs hstep hu⟩

/-! ### The obligations -/

/-- Settles O22: the build answers the reset state, whose store reads as the image. -/
theorem buildGivesTheResetState : Obligations.BuildGivesTheResetState := by
  intro image bm0 w hlen
  have hle : image.length ≤ Config.bootSize := hlen.le
  refine ⟨resetState image bm0 w, build_ok_iff.2 ⟨hlen, rfl⟩, fun n byte hbyte => ?_, Memory.ofImage_wf hle,
    rfl, rfl, rfl, rfl, rfl, rfl, rfl, rfl, rfl, rfl, rfl, rfl⟩
  change (Memory.ofImage image).read n = byte
  rw [Memory.read_ofImage hle, List.getD_eq_getElem?_getD, hbyte, Option.getD_some]

/-- Settles O34: the same instruction stands at PC, or the same error stops the Step. -/
theorem registersDoNotSteerTheEngine : Obligations.RegistersDoNotSteerTheEngine :=
  fun _ _ => State.SameControl.stepReply_agrees

/-- Settles O39: the store and the bit by the frame of an interaction, PC by the interactions that do not fetch. -/
theorem hostCannotReachBeyondItsRights : Obligations.HostCannotReachBeyondItsRights := by
  intro x s
  obtain ⟨hbm, hboot⟩ := interact_sameImage x s
  refine ⟨hboot, hbm, interact_pc s, fun a bm hx => ?_, fun r hx => ?_, fun p hx => ?_, fun r v hx => ?_,
    fun p v hx => ?_⟩ <;> subst hx
  · exact respond_state _ _
  all_goals rfl

/-- Settles O42: a built block meets the invariant, and its latch is empty. -/
theorem everyBuildMeetsTheInvariants : Obligations.EveryBuildMeetsTheInvariants :=
  fun _ _ _ _ => build_runInv

/-- Settles O45: a built block runs and meets the invariant, and PC starts 256 bytes before the window's end. -/
theorem everyRunEndsWithin257Steps : Obligations.EveryRunEndsWithin257Steps := by
  intro image w s hbuild
  obtain ⟨k, hk, t, u, e, hraises⟩ :=
    raisesAfter_of_inv (n := 256) (build_inv hbuild) (build_running hbuild) (Nat.le_add_left 256 s.pc.toNat)
  exact ⟨k, t, u, e, hk, hraises⟩

/-- Settles O23: the image of 256 unlisted bytes lists nothing. -/
theorem resetStateIsABuild : Obligations.ResetStateIsABuild :=
  ⟨rfl, rfl, rfl, rfl, build_unlisted_eq_reset⟩

/-- Settles O41: the reset state is a build. -/
theorem invariantsHoldAtReset : Obligations.InvariantsHoldAtReset :=
  have hreset : State.reset.RunInv := build_runInv build_unlisted_eq_reset
  ⟨hreset.inv, hreset⟩

end Sys2Proof.Machine
end
